-- ==== Sys2Proof/Word.lean ====
section
/-! DEFINITION. The plain data every other file is built from: bytes and words, pin indices, component identifiers, the
display grid, and the real numbers that the angle operands and answers are written with. -/

namespace Sys2Proof

/-- A byte is an integer in 0..255 (R7). -/
abbrev Byte := BitVec 8

/-- A 16-bit wire word; signed or unsigned as the field that holds it says (R29, R48). -/
abbrev Word16 := BitVec 16

/-- A 32-bit wire word: the digital bitmask and the timestamps (R29). -/
abbrev Word32 := BitVec 32

/-- A pin index: "the pin index space is 0..255, the range of an inbound pin byte" (R34). -/
abbrev Pin := BitVec 8

/-- Component identifiers are only compared and passed on, but for one reduction to 8 bits, for which they are taken to
be the integers (R6). -/
abbrev ComponentId := Int

/-- The 5×5 grid of brightness bytes, `g[r][c]` being row r, column c (R15, R33). -/
abbrev Grid := Vector (Vector Byte 5) 5

/-- A real number as plain data (R8, R22 `getPitchRadians`, R81 `rad`): `exact a b` is a + b·π with rational a and b, which the
model computes with; `named n` is any real whatever, the n-th of those that `Config.anyReal` leaves free. DESIGN CHOICE, log
entry 6. -/
inductive RealNum
  | exact (rat piMul : Rat)
  | named (n : Nat)
deriving DecidableEq, Repr, Inhabited

/-- The two irrational constants an angle and its tilt ratio are measured in. -/
inductive Kappa
  | pi
  | invPi
deriving DecidableEq, Repr, Inhabited

/-- The real number `base + coef·κ`, κ being π or 1/π. -/
structure KappaReal where
  base : Rat
  coef : Rat
  unit : Kappa
deriving DecidableEq, Repr, Inhabited

/-- What a real of the arithmetic is measured in: π or 1/π, the real named n, or that real over π. -/
inductive RealUnit
  | kappa (κ : Kappa)
  | named (n : Nat)
  | namedOverPi (n : Nat)
deriving DecidableEq, Repr, Inhabited

/-- The real number `base + coef·unit`: what the rules compute from an angle and apply P_ROUND to (log entries 6 and 7). -/
structure ExactReal where
  base : Rat
  coef : Rat
  unit : RealUnit
deriving DecidableEq, Repr, Inhabited

end Sys2Proof
end

