-- ==== Sys2Proof/Interface.lean ====
section
/-! DEFINITION. The vocabulary of the block's ports: the modes and kinds the requests carry, the queries of R22 grouped by
the type of their answer, the requests of R23, the labels of rejected inputs (R90). -/

namespace Sys2Proof

/-- The idle-state bias of a digital input pin (R12, R14). -/
inductive PullMode
  | none
  | up
  | down
deriving DecidableEq, Repr, Inhabited

/-- The kinds of pin event a subscription can have (R19). -/
inductive EventKind
  | edge
  | pulse
  | touch
deriving DecidableEq, Repr, Inhabited

/-- The names of the notification buffers (R20, R71). -/
inductive BufId
  | evt
  | pin
  | action
deriving DecidableEq, Repr, Inhabited

/-- The notification channels (R71). -/
inductive Channel
  | event
  | pinEvent
  | actionEvent
deriving DecidableEq, Repr, Inhabited

/-- The constant token of the one "shared pin-event callback" of the block (R23). -/
inductive Handler
  | pinHandler
deriving DecidableEq, Repr, Inhabited

/-- The delivery discipline a subscription asks for (R23, R75). -/
inductive Discipline
  | dropIfBusy
deriving DecidableEq, Repr, Inhabited

/-- The queries of R22 whose answer is a Bool. -/
inductive BoolQuery
  | isInput (p : Pin)
  | isDigital (p : Pin)
deriving DecidableEq, Repr, Inhabited

/-- The queries of R22 whose answer is an integer. -/
inductive IntQuery
  | getDigitalValue (p : Pin)
  | getAccelX
  | getAccelY
  | getAccelZ
  | getCompassHeading
  | getCompassX
  | getCompassY
  | getCompassZ
  | getTemperature
deriving DecidableEq, Repr, Inhabited

/-- The query of R22 whose answer is an integer in 0..65535. -/
inductive AnalogQuery
  | getAnalogValue (p : Pin)
deriving DecidableEq, Repr, Inhabited

/-- The query of R22 whose answer is an integer in 0..255. -/
inductive LightQuery
  | readLightLevel
deriving DecidableEq, Repr, Inhabited

/-- The queries of R22 whose answer is a real. -/
inductive RealQuery
  | getPitchRadians
  | getRollRadians
deriving DecidableEq, Repr, Inhabited

/-- The requests of R23, the block's only way to act on its collaborators. The three `setServo` constructors are the
three overloads of `setServoValue`; `enableEdgeDetection` takes `none` for NONE; `flush` stands for the 25 `setPixel`
calls of R60. -/
inductive Request
  | setDigitalValue (p : Pin) (v : Byte)
  | setAnalogValue (p : Pin) (v : Word16)
  | setServoAngle (p : Pin) (angle : Word16)
  | setServoRange (p : Pin) (angle range : Word16)
  | setServoCenter (p : Pin) (angle range center : Word16)
  | setPull (p : Pin) (mode : PullMode)
  | enableTouch (p : Pin)
  | enableEdgeDetection (p : Pin) (kind : Option EventKind)
  | subscribe (cid : ComponentId) (handler : Handler) (discipline : Discipline)
  | unsubscribe (cid : ComponentId) (handler : Handler)
  | stopAnimation
  | scrollText (text : List Byte) (delayMs : Nat)
  | flush (g : Grid)
  | notify (ch : Channel)
deriving DecidableEq, Repr, Inhabited

/-- One entry of an operation's trace: a query with the answer it got, or a request (R26). -/
inductive Interaction
  | askBool (q : BoolQuery) (answer : Bool)
  | askInt (q : IntQuery) (answer : Int)
  | askAnalog (q : AnalogQuery) (answer : Word16)
  | askLight (q : LightQuery) (answer : Byte)
  | askReal (q : RealQuery) (answer : RealNum)
  | emit (r : Request)
deriving DecidableEq, Repr

/-- The ten labels of rejected inputs, each with the value R90 records. "No wire byte, request or state field carries
them": they stand in the report of an operation, not in the block's state. -/
inductive NoopReason
  | unknownClass (cls : BitVec 3)
  | unknownSub (sub : BitVec 5)
  | shortFrame (length : Nat)
  | badPin (pin : Pin)
  | badMode (mode : Byte)
  | badEventType (type : Byte)
  | badIndex (index : Int)
  | notAnalogPin (pin : Pin)
  | notInput (pin : Pin)
  | unknownComponent (cid : ComponentId)
deriving DecidableEq, Repr

/-- The code R90 gives each label. -/
def NoopReason.code : NoopReason → Nat
  | .unknownClass _ => 1
  | .unknownSub _ => 2
  | .shortFrame _ => 3
  | .badPin _ => 4
  | .badMode _ => 5
  | .badEventType _ => 6
  | .badIndex _ => 7
  | .notAnalogPin _ => 8
  | .notInput _ => 9
  | .unknownComponent _ => 10

end Sys2Proof
end

