-- ==== Sys2Proof/Config.lean ====
section
/-! DEFINITION. The configuration record CFG of R5, the spec's test binding T of it, and the free values: what the
collaborators answer when the host has lined up no answer, the reals that are no a + b·π, a P_ROUND other than the default, and
a code map that is no finite table. -/

namespace Sys2Proof

/-- P_EVENT_BUFFERS (R5, R71): one buffer for both event encoders, or one each. -/
inductive EventBuffers
  | shared
  | separate
deriving DecidableEq, Repr, Inhabited

/-- P_ROUND (R5, D28): truncation toward zero is the default; `named n` is any total function from reals to integers whatever,
the n-th of those that `Config.anyRound` leaves free (log entry 7). -/
inductive Rounding
  | towardZero
  | named (n : Nat)
deriving DecidableEq, Repr, Inhabited

/-- A partial map from integer codes to bytes, P_BUTTON_EVENT_MAP or P_GESTURE_MAP (R5): a finite table of pairs, or any partial
map whatever, the n-th of those that `Config.anyCodeMap` leaves free (log entry 1). -/
inductive CodeMap
  | table (entries : List (Int × Byte))
  | named (n : Nat)
deriving DecidableEq, Repr, Inhabited

/-- The pairs a code map lists; a named map lists none. -/
def CodeMap.entries : CodeMap → List (Int × Byte)
  | .table l => l
  | .named _ => []

/-- A real number with what the arithmetic of TILT and SAMPLE_ORIENT asks of it: the floors of its rational multiples, plain and
over π, moved by a rational. Every real number has one (`exists_realOracle`). -/
structure RealOracle where
  val : ℝ := 0
  /-- `⌊a + b·val⌋` -/
  floorAt : Rat → Rat → Int := fun a _ => a.floor
  /-- `⌊a + b·(val/π)⌋` -/
  floorOverPi : Rat → Rat → Int := fun a _ => a.floor
  floorAt_eq : ∀ a b : Rat, floorAt a b = ⌊(a : ℝ) + b * val⌋ := by
    intro a b; rw [mul_zero, add_zero]; exact (Rat.floor_cast a).symm
  floorOverPi_eq : ∀ a b : Rat, floorOverPi a b = ⌊(a : ℝ) + b * (val / Real.pi)⌋ := by
    intro a b; rw [zero_div, mul_zero, add_zero]; exact (Rat.floor_cast a).symm
deriving Inhabited

/-- The configuration record of R5. A set of pins is a list without repeats; the map P_COMPONENT_ID and its domain
P_EVENT_PINS are one identifier table; a partial map from bytes is a list of pairs, one from integers a `CodeMap`. The constraints that the types do not carry are
`Cfg.legal`. Its fields are no state: no operation writes them (R13); log entry 1. -/
structure Cfg where
  /-- P_FRAME_MAX -/
  frameMax : Nat
  /-- P_NOTIFY_LEN -/
  notifyLen : Nat
  /-- P_CLS_DISPLAY -/
  clsDisplay : BitVec 3
  /-- P_CLS_PIN -/
  clsPin : BitVec 3
  /-- P_CLS_SHARED -/
  clsShared : BitVec 3
  /-- P_SUB_TEXT -/
  subText : BitVec 5
  /-- P_SUB_PIXELS_0 -/
  subPixels0 : BitVec 5
  /-- P_SUB_PIXELS_1 -/
  subPixels1 : BitVec 5
  /-- P_SUB_SET_PULL -/
  subSetPull : BitVec 5
  /-- P_SUB_SET_TOUCH -/
  subSetTouch : BitVec 5
  /-- P_SUB_SET_OUTPUT -/
  subSetOutput : BitVec 5
  /-- P_SUB_SET_PWM -/
  subSetPwm : BitVec 5
  /-- P_SUB_SET_SERVO -/
  subSetServo : BitVec 5
  /-- P_SUB_SET_EVENT -/
  subSetEvent : BitVec 5
  /-- P_VALID_PINS -/
  validPins : List Pin
  /-- P_EVENT_PINS, each with its P_COMPONENT_ID -/
  identifierTable : List (Pin × ComponentId)
  /-- P_ANALOG_PINS -/
  analogPins : List Pin
  /-- P_GPIO_SET -/
  gpioSet : List Pin
  /-- P_PULL_DECODE -/
  pullDecode : List (Byte × PullMode)
  /-- P_PULL_RESET -/
  pullReset : PullMode
  /-- P_ANALOG_MAX -/
  analogMax : Word16
  /-- P_EVT_NONE -/
  evtNone : Byte
  /-- P_EVT_EDGE -/
  evtEdge : Byte
  /-- P_EVT_PULSE -/
  evtPulse : Byte
  /-- P_EVT_TOUCH -/
  evtTouch : Byte
  /-- P_DF_PIN_EVENT -/
  dfPinEvent : Byte
  /-- P_DF_ACTION_EVENT -/
  dfActionEvent : Byte
  /-- P_ACT_BUTTON -/
  actButton : Byte
  /-- P_ACT_GESTURE -/
  actGesture : Byte
  /-- P_BUTTON_A_ID -/
  buttonAId : ComponentId
  /-- P_BUTTON_B_ID -/
  buttonBId : ComponentId
  /-- P_BUTTON_EVENT_MAP -/
  buttonEventMap : CodeMap
  /-- P_GESTURE_MAP -/
  gestureMap : CodeMap
  /-- P_EVENT_BUFFERS -/
  eventBuffers : EventBuffers
  /-- P_N_ANALOG -/
  nAnalog : Nat
  /-- P_N_LIGHT -/
  nLight : Nat
  /-- P_ROUND -/
  round : Rounding
deriving DecidableEq, Repr

/-- P_EVENT_PINS: the pins of the identifier table (R5, R61). -/
def Cfg.eventPins (c : Cfg) : List Pin := c.identifierTable.map Prod.fst

/-- BufId: the buffers that exist under P_EVENT_BUFFERS (R20). -/
def Cfg.bufIds (c : Cfg) : List BufId :=
  match c.eventBuffers with
  | .shared => [.evt]
  | .separate => [.pin, .action]

/-- The pins of the source's identifier table, the default of P_EVENT_PINS and P_GPIO_SET (R5, D16, D32). -/
def defaultPins : List Pin := [0, 1, 2, 8, 12, 13, 14, 15, 16]

/-- Binding T of spec/95_test_vectors.md, "an arbitrary binding chosen by the spec for testing only". The machine's reset
state carries it (DESIGN CHOICE, log entry 2); no statement rests on its values. -/
def Cfg.bindingT : Cfg where
  frameMax := 20
  notifyLen := 20
  clsDisplay := 1
  clsPin := 2
  clsShared := 3
  subText := 0
  subPixels0 := 1
  subPixels1 := 2
  subSetPull := 0
  subSetTouch := 1
  subSetOutput := 2
  subSetPwm := 3
  subSetServo := 4
  subSetEvent := 5
  validPins := (List.range 21).map (BitVec.ofNat 8)
  identifierTable := defaultPins.map fun p => (p, 100 + p.toNat)
  analogPins := [0, 1, 2]
  gpioSet := defaultPins
  pullDecode := [(0, .none), (1, .up), (2, .down)]
  pullReset := .none
  analogMax := 1023
  evtNone := 0
  evtEdge := 1
  evtPulse := 2
  evtTouch := 3
  dfPinEvent := 0x11
  dfActionEvent := 0x12
  actButton := 1
  actGesture := 2
  buttonAId := 1
  buttonBId := 2
  buttonEventMap := .table [(1, 1), (2, 2)]
  gestureMap := .table []
  eventBuffers := .shared
  nAnalog := 5
  nLight := 3
  round := .towardZero

namespace Config

/-- The free answer to the `n`-th query when the host has lined up none, for a query answered with a Bool: "a draw the
host supplies, under no law" (R12, R22). Log entry 3. -/
opaque freeBool : Nat → BoolQuery → Bool

/-- The free answer to a query answered with an integer (R22, log entry 3). -/
opaque freeInt : Nat → IntQuery → Int

/-- The free answer to `getAnalogValue`, in 0..65535 (R22, log entry 3). -/
opaque freeAnalog : Nat → AnalogQuery → Word16

/-- The free answer to `readLightLevel`, in 0..255 (R22, log entry 3). -/
opaque freeLight : Nat → LightQuery → Byte

/-- The free answer to a query answered with a real (R22, log entries 3 and 6). -/
opaque freeReal : Nat → RealQuery → RealNum

/-- The n-th real of which nothing is known (R8, R22, log entry 6). -/
opaque anyReal : Nat → RealOracle

/-- The n-th total function from reals to integers of which nothing is known: P_ROUND where it is not the default (R5, U5, log
entry 7). A real is given to it as the property of being that real, which the model can write down without computing it. -/
opaque anyRound : Nat → (ℝ → Prop) → Int

/-- The n-th partial map from integer codes to bytes of which nothing is known (R5, log entry 1). -/
opaque anyCodeMap : Nat → Int → Option Byte

end Config

end Sys2Proof
end

