-- ==== Sys2Proof/Syntax.lean ====
section
/-! DEFINITION. Syntax, whole: one constructor of `Instr` per row of spec/opcode_table.json (ten wire forms, thirteen host
operations), and the thirteen operations of the operation port (R24). -/

namespace Sys2Proof

/-- The operations of the opcode table with their operands. The wire forms carry the fields of R47 as they stand in the
frame; the host operations carry the operands of R24. -/
inductive Instr
  /-- DISPLAY.TEXT: byte 1 and the bytes 2..len−1 as they came (R57). -/
  | displayText (delay : Byte) (text : List Byte)
  /-- DISPLAY.PIXELS_0: bytes 1..15, rows 0 to 2 (R58). -/
  | displayPixels0 (px : Vector Byte 15)
  /-- DISPLAY.PIXELS_1: bytes 1..10, rows 3 to 4 (R59). -/
  | displayPixels1 (px : Vector Byte 10)
  /-- PIN.SET_PULL (R62). -/
  | pinSetPull (pin : Pin) (mode : Byte)
  /-- PIN.SET_TOUCH (R63). -/
  | pinSetTouch (pin : Pin)
  /-- PIN.SET_OUTPUT (R64). -/
  | pinSetOutput (pin : Pin) (value : Byte)
  /-- PIN.SET_PWM (R65). -/
  | pinSetPwm (pin : Pin) (duty : Word16)
  /-- PIN.SET_SERVO (R66); byte 4 is not read (R49) and has no operand. -/
  | pinSetServo (pin : Pin) (angle range center : Word16)
  /-- PIN.SET_EVENT (R67). -/
  | pinSetEvent (pin : Pin) (type : Byte)
  /-- SHARED.DATA (R87); the value is the 16 bits of an s16 field. -/
  | sharedData (index : Byte) (value : Word16)
  /-- COMMAND (R53). -/
  | command (frame : List Byte)
  /-- SAMPLE_ENV (R76). -/
  | sampleEnv (buf : List Byte)
  /-- SAMPLE_ORIENT (R79). -/
  | sampleOrient (buf : List Byte)
  /-- SAMPLE_ANALOG (R82). -/
  | sampleAnalog (buf : List Byte) (pin : Pin)
  /-- HNORM (R80). -/
  | hnorm (h : Int) (facedown : Bool)
  /-- TILT (R81). -/
  | tilt (rad : RealNum)
  /-- MEDIAN (R83). -/
  | median (values : List Int)
  /-- PIN_EVENT_IN (R72). -/
  | pinEventIn (cid : ComponentId) (ev : Int) (time : Nat)
  /-- BUTTON_EVENT_IN (R73). -/
  | buttonEventIn (src : ComponentId) (ev : Int) (time : Nat)
  /-- GESTURE_EVENT_IN (R74). -/
  | gestureEventIn (code : Int) (time : Nat)
  /-- SHARED_SET (R88). -/
  | sharedSet (idx v : Int)
  /-- SHARED_GET (R89). -/
  | sharedGet (idx : Int)
  /-- RESET (R102). -/
  | reset
deriving DecidableEq, Repr

/-- The operation port: "The host starts one operation at a time, and exactly these exist" (R24). A wire form reaches the
block only inside `command`. -/
inductive Operation
  | command (frame : List Byte)
  | sampleEnv (buf : List Byte)
  | sampleOrient (buf : List Byte)
  | sampleAnalog (buf : List Byte) (pin : Pin)
  | hnorm (h : Int) (facedown : Bool)
  | tilt (rad : RealNum)
  | median (values : List Int)
  | pinEventIn (cid : ComponentId) (ev : Int) (time : Nat)
  | buttonEventIn (src : ComponentId) (ev : Int) (time : Nat)
  | gestureEventIn (code : Int) (time : Nat)
  | sharedSet (idx v : Int)
  | sharedGet (idx : Int)
  | reset
deriving DecidableEq, Repr

/-- The row of the opcode table an operation of the port is. -/
def Operation.instr : Operation → Instr
  | .command f => .command f
  | .sampleEnv b => .sampleEnv b
  | .sampleOrient b => .sampleOrient b
  | .sampleAnalog b p => .sampleAnalog b p
  | .hnorm h f => .hnorm h f
  | .tilt r => .tilt r
  | .median v => .median v
  | .pinEventIn c e t => .pinEventIn c e t
  | .buttonEventIn c e t => .buttonEventIn c e t
  | .gestureEventIn c t => .gestureEventIn c t
  | .sharedSet i v => .sharedSet i v
  | .sharedGet i => .sharedGet i
  | .reset => .reset

/-- The rows with a wire encoding: the ten forms that COMMAND carries (R47). -/
def Instr.isForm : Instr → Bool
  | .displayText _ _ | .displayPixels0 _ | .displayPixels1 _ => true
  | .pinSetPull _ _ | .pinSetTouch _ | .pinSetOutput _ _ | .pinSetPwm _ _ => true
  | .pinSetServo _ _ _ _ | .pinSetEvent _ _ | .sharedData _ _ => true
  | .command _ | .sampleEnv _ | .sampleOrient _ | .sampleAnalog _ _ => false
  | .hnorm _ _ | .tilt _ | .median _ => false
  | .pinEventIn _ _ _ | .buttonEventIn _ _ _ | .gestureEventIn _ _ => false
  | .sharedSet _ _ | .sharedGet _ | .reset => false

end Sys2Proof
end

