-- ==== Sys2Proof/Decode.lean ====
section
/-! DEFINITION. The command frame encoding (spec/30_encoding.md): field extraction, the decoder, total on any byte list and
rejecting by name, the encoder, and the decoder on a word of the opcode table's numbering. -/

namespace Sys2Proof

/-- `frame[i]`, byte i of a frame (R9); every use is behind a length check. -/
def u8At (f : List Byte) (i : Nat) : Byte := f.getD i 0

/-- `u16le(f, i)`: bits 7:0 at byte i, bits 15:8 at byte i+1 (R9, R27). -/
def u16leAt (f : List Byte) (i : Nat) : Word16 := u8At f (i + 1) ++ u8At f i

/-- Bits 7:0 of a 16-bit field. -/
def lowByte (w : Word16) : Byte := w.extractLsb' 0 8

/-- Bits 15:8 of a 16-bit field. -/
def highByte (w : Word16) : Byte := w.extractLsb' 8 8

/-- The class field `frame[0][7:5]` (R42). -/
def classOf (h : Byte) : BitVec 3 := h.extractLsb' 5 3

/-- The subcommand field `frame[0][4:0]` (R42). -/
def subOf (h : Byte) : BitVec 5 := h.extractLsb' 0 5

/-- `H(cls, sub)`, the header byte `(cls << 5) | sub` (R52). -/
def header (cls : BitVec 3) (sub : BitVec 5) : Byte := cls ++ sub

/-- The ten forms a header can select (R43 to R46). -/
inductive FormKind
  | text
  | pixels0
  | pixels1
  | setPull
  | setTouch
  | setOutput
  | setPwm
  | setServo
  | setEvent
  | sharedData
deriving DecidableEq, Repr

/-- DISPLAY subcommands (R44). -/
def selectDisplay (c : Cfg) (sub : BitVec 5) : Except NoopReason FormKind :=
  if sub = c.subText then .ok .text
  else if sub = c.subPixels0 then .ok .pixels0
  else if sub = c.subPixels1 then .ok .pixels1
  else .error (.unknownSub sub)

/-- PIN subcommands (R45). -/
def selectPin (c : Cfg) (sub : BitVec 5) : Except NoopReason FormKind :=
  if sub = c.subSetPull then .ok .setPull
  else if sub = c.subSetTouch then .ok .setTouch
  else if sub = c.subSetOutput then .ok .setOutput
  else if sub = c.subSetPwm then .ok .setPwm
  else if sub = c.subSetServo then .ok .setServo
  else if sub = c.subSetEvent then .ok .setEvent
  else .error (.unknownSub sub)

/-- The form a header selects: class first, then subcommand; SHARED_DATA ignores the subcommand (R43 to R46). -/
def selectForm (c : Cfg) (cls : BitVec 3) (sub : BitVec 5) : Except NoopReason FormKind :=
  if cls = c.clsDisplay then selectDisplay c sub
  else if cls = c.clsPin then selectPin c sub
  else if cls = c.clsShared then .ok .sharedData
  else .error (.unknownClass cls)

/-- MINLEN: the highest offset a form reads plus one (R47, R53). -/
def minLength : FormKind → Nat
  | .text => 2
  | .pixels0 => 16
  | .pixels1 => 11
  | .setPull => 3
  | .setTouch => 2
  | .setOutput => 3
  | .setPwm => 4
  | .setServo => 9
  | .setEvent => 3
  | .sharedData => 4

/-- The operands of a form, at the offsets of R47; bytes a form does not name are not read (R49). -/
def operandsOf (k : FormKind) (f : List Byte) : Instr :=
  match k with
  | .text => .displayText (u8At f 1) (f.drop 2)
  | .pixels0 => .displayPixels0 (Vector.ofFn fun i => u8At f (1 + i.val))
  | .pixels1 => .displayPixels1 (Vector.ofFn fun i => u8At f (1 + i.val))
  | .setPull => .pinSetPull (u8At f 1) (u8At f 2)
  | .setTouch => .pinSetTouch (u8At f 1)
  | .setOutput => .pinSetOutput (u8At f 1) (u8At f 2)
  | .setPwm => .pinSetPwm (u8At f 1) (u16leAt f 2)
  | .setServo => .pinSetServo (u8At f 1) (u16leAt f 2) (u16leAt f 5) (u16leAt f 7)
  | .setEvent => .pinSetEvent (u8At f 1) (u8At f 2)
  | .sharedData => .sharedData (u8At f 1) (u16leAt f 2)

/-- What a frame is to the parser: a form with its operands, a silent no-op with its label, or a frame the operation port
cannot carry. -/
inductive Decoded
  | form (i : Instr)
  | noop (r : NoopReason)
  | tooLong
deriving DecidableEq, Repr

/-- The decoding part of COMMAND, checks in the order of R53: length over P_FRAME_MAX, length 0, class, subcommand, minimum
length. -/
def decodeFrame (c : Cfg) (f : List Byte) : Decoded :=
  if c.frameMax < f.length then .tooLong
  else match f with
    | [] => .noop (.shortFrame 0)
    | h :: _ =>
      match selectForm c (classOf h) (subOf h) with
      | .error r => .noop r
      | .ok k => if f.length < minLength k then .noop (.shortFrame f.length) else .form (operandsOf k f)

/-- The frame of a form, bytes in the order of R52: 0x00 in SET_SERVO byte 4 and 0 in the SHARED_DATA subcommand field. A
host operation has no wire encoding. -/
def encode (c : Cfg) : Instr → Option (List Byte)
  | .displayText d t => some (header c.clsDisplay c.subText :: d :: t)
  | .displayPixels0 px => some (header c.clsDisplay c.subPixels0 :: px.toList)
  | .displayPixels1 px => some (header c.clsDisplay c.subPixels1 :: px.toList)
  | .pinSetPull p m => some [header c.clsPin c.subSetPull, p, m]
  | .pinSetTouch p => some [header c.clsPin c.subSetTouch, p]
  | .pinSetOutput p v => some [header c.clsPin c.subSetOutput, p, v]
  | .pinSetPwm p w => some [header c.clsPin c.subSetPwm, p, lowByte w, highByte w]
  | .pinSetServo p a r m =>
    some [header c.clsPin c.subSetServo, p, lowByte a, highByte a, 0, lowByte r, highByte r, lowByte m, highByte m]
  | .pinSetEvent p t => some [header c.clsPin c.subSetEvent, p, t]
  | .sharedData i v => some [header c.clsShared 0, i, lowByte v, highByte v]
  | .command _ | .sampleEnv _ | .sampleOrient _ | .sampleAnalog _ _ => none
  | .hnorm _ _ | .tilt _ | .median _ => none
  | .pinEventIn _ _ _ | .buttonEventIn _ _ _ | .gestureEventIn _ _ => none
  | .sharedSet _ _ | .sharedGet _ | .reset => none

/-- The frame that a word of the opcode table's numbering stands for: byte k is bits 8k+7:8k of `w` below `nbits`, and every
byte above is 0, up to the longest frame (20 bytes, R41). -/
def tableFrame (nbits w : Nat) : List Byte :=
  (List.range (max 20 ((nbits + 7) / 8))).map fun k =>
    if 8 * k < nbits then BitVec.ofNat 8 (w >>> (8 * k)) else 0

/-- The instruction the decoder reads from such a word, under the configuration of the reset state (log entry 2). -/
def decodeTableWord (nbits w : Nat) : Option Instr :=
  match decodeFrame Cfg.bindingT (tableFrame nbits w) with
  | .form i => some i
  | .noop _ => none
  | .tooLong => none

end Sys2Proof
end

