-- ==== Sys2Proof/Machine/Legality.lean ====
section
/-! DEFINITION. The constraints R5 puts on the configuration. "A model also refuses every operation under a CFG that breaks a
constraint" (R91). Constraints that a field's type carries (3-bit, 5-bit and byte codes, P_ANALOG_MAX ≤ 65535) are not repeated. -/

namespace Sys2Proof

/-- Class and subcommand codes: classes pairwise distinct, subcommands pairwise distinct within their class (R5, R45). -/
abbrev Cfg.HeaderCodesLegal (c : Cfg) : Prop :=
  [c.clsDisplay, c.clsPin, c.clsShared].Nodup ∧
  [c.subText, c.subPixels0, c.subPixels1].Nodup ∧
  [c.subSetPull, c.subSetTouch, c.subSetOutput, c.subSetPwm, c.subSetServo, c.subSetEvent].Nodup

/-- Pin sets: sets without repeats, event and analog pins valid, component identifiers injective, GPIO pins in 0..31 and
neither 5 nor 11 (R5). -/
abbrev Cfg.PinsLegal (c : Cfg) : Prop :=
  c.validPins.Nodup ∧
  c.eventPins.Nodup ∧
  c.eventPins ⊆ c.validPins ∧
  (c.identifierTable.map Prod.snd).Nodup ∧
  c.analogPins.Nodup ∧
  c.analogPins ⊆ c.validPins ∧
  c.gpioSet.Nodup ∧
  c.gpioSet.Forall fun p => p.toNat < 32 ∧ p ≠ 5 ∧ p ≠ 11

/-- Mode, event, discriminator and action codes and maps (R5): P_PULL_DECODE is an injective partial map on at least three
codes, the event maps are partial maps (a named one is by its type). -/
abbrev Cfg.FieldCodesLegal (c : Cfg) : Prop :=
  (c.pullDecode.map Prod.fst).Nodup ∧
  (c.pullDecode.map Prod.snd).Nodup ∧
  3 ≤ c.pullDecode.length ∧
  [c.evtNone, c.evtEdge, c.evtPulse, c.evtTouch].Nodup ∧
  c.dfPinEvent ≠ c.dfActionEvent ∧
  c.actButton ≠ c.actGesture ∧
  c.buttonAId ≠ c.buttonBId ∧
  (c.buttonEventMap.entries.map Prod.fst).Nodup ∧
  (c.gestureMap.entries.map Prod.fst).Nodup

/-- Lengths and counts: frames of at most 20 bytes (source §3), notification buffers of at least 20, at least one sample
(R5). -/
abbrev Cfg.CountsLegal (c : Cfg) : Prop :=
  c.frameMax = 20 ∧ 20 ≤ c.notifyLen ∧ 1 ≤ c.nAnalog ∧ 1 ≤ c.nLight

/-- Every constraint of R5. -/
def Cfg.legal (c : Cfg) : Bool :=
  decide (c.HeaderCodesLegal ∧ c.PinsLegal ∧ c.FieldCodesLegal ∧ c.CountsLegal)

end Sys2Proof
end

