-- ==== Sys2Proof/Machine/Block.lean ====
section
/-! DEFINITION. The block's state `S`, "one record, made of the fields of rules R14 to R20 and nothing else" (R13), and its
reset values (R102). -/

namespace Sys2Proof.Machine

/-- An entry of the subscription registry: "an enabled/disabled flag plus event kind" (R19). -/
structure Subscription where
  en : Bool
  kind : EventKind
deriving DecidableEq, Repr, Inhabited

/-- The state `S` of R13. A map from a finite set is the list of its pairs. -/
structure Block where
  /-- S.PULL, a mode per valid pin (R14). -/
  pull : List (Pin × PullMode)
  /-- S.GRID, the shadow pixel grid (R15). -/
  grid : Grid
  /-- S.SREG, four signed 16-bit registers in two's complement (R16). -/
  sreg : Vector Word16 4
  /-- S.ARING, one sample buffer per analog-capable pin (R17). -/
  aring : List (Pin × List Word16)
  /-- S.LRING, the ambient-light ring (R18). -/
  lring : List Byte
  /-- S.LIDX, the next slot of the light ring to be written (R18). -/
  lidx : Nat
  /-- S.SUB, the subscription registry (R19). -/
  sub : List (Pin × Subscription)
  /-- S.NBUF, the notification buffers (R20). -/
  nbuf : List (BufId × List Byte)
deriving DecidableEq, Repr

/-- The reset value of a subscription: off, with the placeholder kind EDGE (R19). -/
def resetSubscription : Subscription := { en := false, kind := .edge }

/-- Every field at the reset value of R102 (log entry 9). -/
def resetBlock (c : Cfg) : Block where
  pull := c.validPins.map fun p => (p, c.pullReset)
  grid := Vector.replicate 5 (Vector.replicate 5 0)
  sreg := Vector.replicate 4 0
  aring := c.analogPins.map fun p => (p, List.replicate c.nAnalog 0)
  lring := List.replicate c.nLight 0
  lidx := 0
  sub := c.eventPins.map fun p => (p, resetSubscription)
  nbuf := c.bufIds.map fun b => (b, List.replicate c.notifyLen 0)

end Sys2Proof.Machine
end

