-- ==== Sys2Proof/Machine/State.lean ====
section
/-! DEFINITION. The machine's state as plain data: the configuration, the block's state `S`, and the three ports (R22 to R26);
the reasons a step can stop; the state after reset. -/

namespace Sys2Proof.Machine

/-- What an operation returns: "the returned value or the written caller buffer, or nothing" (R26). -/
inductive Result
  | nothing
  | int (v : Int)
  | buffer (b : List Byte)
deriving DecidableEq, Repr

/-- The outcome of one operation as the host receives it (R26), with the model's label of a no-op (R90) and the ordered
writes to the notification buffers, R36's "order of the writes in the operation's effect list". Log entry 5. -/
structure Report where
  trace : List Interaction
  result : Result
  noop : Option NoopReason
  bufWrites : List (BufId × Nat × Byte)
deriving DecidableEq, Repr

/-- The report of an operation that has done nothing yet. -/
def Report.empty : Report := { trace := [], result := .nothing, noop := none, bufWrites := [] }

/-- The answers the host has lined up, oldest first, one list for each type of answer in R22 (log entry 3). -/
structure Replies where
  bools : List (BoolQuery × Bool)
  ints : List (IntQuery × Int)
  analogs : List (AnalogQuery × Word16)
  lights : List (LightQuery × Byte)
  reals : List (RealQuery × RealNum)
deriving DecidableEq, Repr

/-- No answer lined up: every query gets a free answer. -/
def Replies.none : Replies := { bools := [], ints := [], analogs := [], lights := [], reals := [] }

/-- The machine. `blk` is the spec's state `S` (R13). The other fields are the model's: the configuration, which no
operation writes (log entry 1); the operations the host will start, in its order (log entry 4); the answers it has lined
up and how many queries have been asked (log entry 3); the outcome of the last operation (log entry 5). -/
structure State where
  cfg : Cfg
  blk : Block
  port : List Operation
  replies : Replies
  draws : Nat
  last : Report
deriving DecidableEq, Repr

/-- The block "raises no exception, trap or error of any kind" (R90), so no step ends in a fault: there is no constructor. -/
inductive Fault
deriving DecidableEq, Repr

/-- The inputs the model gives no meaning (R91). -/
inductive Refusal
  /-- Raised by no arm of `exec`: every instruction has its meaning. Safe: the model stops. -/
  | notModelled (mnemonic : String)
  /-- FRAME_TOO_LONG, raised by COMMAND for a frame longer than 20 bytes (R41, R91). Safe: the model stops. -/
  | frameTooLong
  /-- BUFFER_TOO_SHORT, raised by SAMPLE_ENV, SAMPLE_ORIENT and SAMPLE_ANALOG (R25, R91). Safe: the model stops. -/
  | bufferTooShort
  /-- EMPTY_INPUT, raised by MEDIAN (R83, R91). Safe: the model stops. -/
  | emptyInput
  /-- NEGATIVE_SAMPLE, raised by MEDIAN (R83, R91). Safe: the model stops. -/
  | negativeSample
  /-- Raised by every operation "under a CFG that breaks a constraint of R5" (R91). Safe: the model stops. -/
  | illegalConfiguration
deriving DecidableEq, Repr

/-- The machine right after RESET under configuration `c`, with nothing at its ports (R102 to R104). -/
def State.resetWith (c : Cfg) : State where
  cfg := c
  blk := resetBlock c
  port := []
  replies := Replies.none
  draws := 0
  last := Report.empty

/-- The machine right after reset. Its configuration is the spec's test binding T (DESIGN CHOICE, log entry 2); statements
about reset are made of `State.resetWith c` for every legal `c`. -/
def State.reset : State := State.resetWith Cfg.bindingT

end Sys2Proof.Machine
end

