-- ==== Sys2Proof/Machine/Ops.lean ====
section
/-! DEFINITION. The shared operations: a finite map kept as a list of pairs, the query port, the request port, the writes to
each field of `S`, and the frame every operation runs in: its start, its three ends (done, no-op, refused). There is no
exception entry or return: R90, R96. -/

namespace Sys2Proof.Machine

/-- The three outcomes of an operation. -/
abbrev Out := Host.Outcome State Fault Refusal

/-- The value a map holds at `k`, `d` where it lists none. -/
def mapGet {κ α : Type} [DecidableEq κ] (k : κ) (d : α) : List (κ × α) → α
  | [] => d
  | (k', v) :: t => if k' = k then v else mapGet k d t

/-- The map with `v` at `k`, every other key as it was and in its place. -/
def mapSet {κ α : Type} [DecidableEq κ] (k : κ) (v : α) : List (κ × α) → List (κ × α)
  | [] => [(k, v)]
  | (k', v') :: t => if k' = k then (k', v) :: t else (k', v') :: mapSet k v t

/-- A partial map of the configuration at `k`. -/
def mapFind? {κ α : Type} [DecidableEq κ] (k : κ) : List (κ × α) → Option α
  | [] => none
  | (k', v) :: t => if k' = k then some v else mapFind? k t

/-- The list without the first answer to `q`. -/
def dropReply {κ α : Type} [DecidableEq κ] (q : κ) : List (κ × α) → List (κ × α)
  | [] => []
  | (k, v) :: t => if k = q then t else (k, v) :: dropReply q t

/-- Appends an entry to the trace of the running operation. -/
def State.log (x : Interaction) (s : State) : State :=
  { s with last := { s.last with trace := s.last.trace ++ [x] } }

/-- `emit Req(args)`: appends a request to the operation's ordered list (R9, R23). -/
def State.emit (r : Request) (s : State) : State := s.log (.emit r)

/-- `ask` for a Bool: the first answer the host has lined up for the query, else a free one (R9, R22, log entry 3). -/
def State.askBool (q : BoolQuery) (s : State) : Bool × State :=
  let a := (mapFind? q s.replies.bools).getD (Config.freeBool s.draws q)
  (a, { s with
    replies := { s.replies with bools := dropReply q s.replies.bools }
    draws := s.draws + 1
    last := { s.last with trace := s.last.trace ++ [.askBool q a] } })

/-- `ask` for an integer. -/
def State.askInt (q : IntQuery) (s : State) : Int × State :=
  let a := (mapFind? q s.replies.ints).getD (Config.freeInt s.draws q)
  (a, { s with
    replies := { s.replies with ints := dropReply q s.replies.ints }
    draws := s.draws + 1
    last := { s.last with trace := s.last.trace ++ [.askInt q a] } })

/-- `ask` for a sample in 0..65535. -/
def State.askAnalog (q : AnalogQuery) (s : State) : Word16 × State :=
  let a := (mapFind? q s.replies.analogs).getD (Config.freeAnalog s.draws q)
  (a, { s with
    replies := { s.replies with analogs := dropReply q s.replies.analogs }
    draws := s.draws + 1
    last := { s.last with trace := s.last.trace ++ [.askAnalog q a] } })

/-- `ask` for a light level in 0..255. -/
def State.askLight (q : LightQuery) (s : State) : Byte × State :=
  let a := (mapFind? q s.replies.lights).getD (Config.freeLight s.draws q)
  (a, { s with
    replies := { s.replies with lights := dropReply q s.replies.lights }
    draws := s.draws + 1
    last := { s.last with trace := s.last.trace ++ [.askLight q a] } })

/-- `ask` for a real. -/
def State.askReal (q : RealQuery) (s : State) : RealNum × State :=
  let a := (mapFind? q s.replies.reals).getD (Config.freeReal s.draws q)
  (a, { s with
    replies := { s.replies with reals := dropReply q s.replies.reals }
    draws := s.draws + 1
    last := { s.last with trace := s.last.trace ++ [.askReal q a] } })

/-- `S.PULL[p]`. -/
def State.pullOf (p : Pin) (s : State) : PullMode := mapGet p s.cfg.pullReset s.blk.pull

/-- `S.SUB[p]`. -/
def State.subOf (p : Pin) (s : State) : Subscription := mapGet p resetSubscription s.blk.sub

/-- `S.ARING[p]`. -/
def State.aringOf (p : Pin) (s : State) : List Word16 := mapGet p (List.replicate s.cfg.nAnalog 0) s.blk.aring

/-- `S.NBUF[b]`. -/
def State.nbufOf (b : BufId) (s : State) : List Byte := mapGet b (List.replicate s.cfg.notifyLen 0) s.blk.nbuf

/-- `S.PULL[p] <- m` (R62). -/
def State.setPull (p : Pin) (m : PullMode) (s : State) : State :=
  { s with blk := { s.blk with pull := mapSet p m s.blk.pull } }

/-- Writes the grid (R58, R59). -/
def State.setGrid (g : Grid) (s : State) : State := { s with blk := { s.blk with grid := g } }

/-- `S.SREG[i] <- v` (R87, R88). -/
def State.setSreg (i : Fin 4) (v : Word16) (s : State) : State :=
  { s with blk := { s.blk with sreg := s.blk.sreg.set i v } }

/-- Writes every slot of `S.ARING[p]` (R84). -/
def State.setAring (p : Pin) (ring : List Word16) (s : State) : State :=
  { s with blk := { s.blk with aring := mapSet p ring s.blk.aring } }

/-- Writes the light ring and its index (R85). -/
def State.setLight (ring : List Byte) (idx : Nat) (s : State) : State :=
  { s with blk := { s.blk with lring := ring, lidx := idx } }

/-- `S.SUB[p] <- e` (R68, R69). -/
def State.setSub (p : Pin) (e : Subscription) (s : State) : State :=
  { s with blk := { s.blk with sub := mapSet p e s.blk.sub } }

/-- Writes bytes at offsets, in order, every byte not named unchanged (R37). An offset past the end writes nothing. -/
def writeBytes (b : List Byte) : List (Nat × Byte) → List Byte
  | [] => b
  | (i, v) :: ws => writeBytes (b.set i v) ws

/-- Writes a frame into notification buffer `b`, in the order given, and records that order (R36). -/
def State.writeNbuf (b : BufId) (ws : List (Nat × Byte)) (s : State) : State :=
  { s with
    blk := { s.blk with nbuf := mapSet b (writeBytes (s.nbufOf b) ws) s.blk.nbuf }
    last := { s.last with bufWrites := s.last.bufWrites ++ ws.map fun w => (b, w.1, w.2) } }

/-- An operation starts with an empty report. -/
def State.begin (s : State) : State := { s with last := Report.empty }

/-- The end `Ok(S', trace, result)` of an operation (R26). -/
def State.finish (r : Result) (s : State) : Out := .next { s with last := { s.last with result := r } }

/-- `noop(reason)`: no state change, no request; the trace keeps the queries asked before it (R9, R26). Each rule does its
checks before its first write, so nothing has been written or emitted. -/
def State.noop (r : NoopReason) (s : State) : Out := .next { s with last := { s.last with noop := some r } }

/-- The frame of every operation: refused under an illegal configuration (R91), else run with a fresh report. -/
def State.transact (s : State) (body : State → Out) : Out :=
  if s.cfg.legal then body s.begin else .refused .illegalConfiguration

/-- The host starts its next operation: the first of the port, if there is one (R24, log entry 4). -/
def State.fetch (s : State) : Option (Operation × State) :=
  match s.port with
  | [] => none
  | op :: rest => some (op, { s with port := rest })

/-- The host puts COMMAND with this frame at the front of the operation port. -/
def State.deliverFrame (frame : List Byte) (s : State) : State := { s with port := .command frame :: s.port }

end Sys2Proof.Machine
end

