-- ==== Sys2Proof/Machine/Operands.lean ====
section
/-! DEFINITION. Operand forms: the width conversions of R8, the byte writes of R9, and the look-ups that turn a wire code into
what it stands for. -/

namespace Sys2Proof.Machine

/-- `sext_16(u)`: the two's-complement reading of 16 bits (R8). -/
def sext16 (u : Word16) : Int := u.toInt

/-- `trunc_8(v)`: the low 8 bits (R8). -/
def trunc8 (v : Int) : Byte := BitVec.ofInt 8 v

/-- `trunc_16(v)`, also `enc16(v)`: the low 16 bits (R8). -/
def trunc16 (v : Int) : Word16 := BitVec.ofInt 16 v

/-- `trunc_32(v)` of a natural: the low 32 bits (R8). -/
def trunc32 (v : Nat) : Word32 := BitVec.ofNat 32 v

/-- `sat_s16(v)` (R8). -/
def satS16 (v : Int) : Int := max (-32768) (min 32767 v)

/-- `sat_u16(v)` (R8). -/
def satU16 (v : Int) : Int := max 0 (min 65535 v)

/-- `sat_u8(v)` (R8). -/
def satU8 (v : Int) : Int := max 0 (min 255 v)

/-- `put8(b, i, v)` as the write it makes (R9). -/
def put8 (i : Nat) (v : Byte) : List (Nat × Byte) := [(i, v)]

/-- `put16le(b, i, v)` as the two writes it makes, low byte first (R9, R27). -/
def put16le (i : Nat) (v : Int) : List (Nat × Byte) := [(i, lowByte (trunc16 v)), (i + 1, highByte (trunc16 v))]

/-- `put32le(b, i, v)` as the four writes it makes, byte k being bits 8k+7:8k (R9, R27). -/
def put32le (i : Nat) (v : Word32) : List (Nat × Byte) :=
  [(i, v.extractLsb' 0 8), (i + 1, v.extractLsb' 8 8), (i + 2, v.extractLsb' 16 8), (i + 3, v.extractLsb' 24 8)]

/-- `P_PULL_DECODE` (R62). -/
def decodePull (c : Cfg) (code : Byte) : Option PullMode := mapFind? code c.pullDecode

/-- What an event-type code asks for (R67): `none` is an unknown code, `some none` is P_EVT_NONE. -/
def decodeEventType (c : Cfg) (t : Byte) : Option (Option EventKind) :=
  if t = c.evtNone then some none
  else if t = c.evtEdge then some (some .edge)
  else if t = c.evtPulse then some (some .pulse)
  else if t = c.evtTouch then some (some .touch)
  else none

/-- `P_COMPONENT_ID(p)`, defined exactly on P_EVENT_PINS (R5, R61). -/
def componentOf (c : Cfg) (p : Pin) : Option ComponentId := mapFind? p c.identifierTable

/-- The pin of P_EVENT_PINS whose component identifier is `cid`, if there is one (R72). -/
def pinOfComponent (c : Cfg) (cid : ComponentId) : Option Pin :=
  mapFind? cid (c.identifierTable.map fun e => (e.2, e.1))

/-- The register a shared-register index names: 0..3, else none (R34, R87 to R89). -/
def sregIndex (i : Int) : Option (Fin 4) :=
  if h : 0 ≤ i ∧ i ≤ 3 then some ⟨i.toNat, by omega⟩ else none

/-- `bufPIN` (R71). -/
def pinBuf (c : Cfg) : BufId :=
  match c.eventBuffers with
  | .shared => .evt
  | .separate => .pin

/-- `bufACT` (R71). -/
def actionBuf (c : Cfg) : BufId :=
  match c.eventBuffers with
  | .shared => .evt
  | .separate => .action

/-- `chPIN` (R71). -/
def pinChannel (c : Cfg) : Channel :=
  match c.eventBuffers with
  | .shared => .event
  | .separate => .pinEvent

/-- `chACT` (R71). -/
def actionChannel (c : Cfg) : Channel :=
  match c.eventBuffers with
  | .shared => .event
  | .separate => .actionEvent

end Sys2Proof.Machine
end

