-- ==== Sys2Proof/Machine/Display.lean ====
section
/-! DEFINITION. The display shadow-buffer compositor (spec/41_display_compositor.md), and the `setPixel` calls a flush stands for. -/

namespace Sys2Proof.Machine

/-- The text of a TEXT frame: the bytes before the first 0x00 (R57). -/
def textOf (raw : List Byte) : List Byte := raw.takeWhile (· ≠ 0)

/-- Rows 0 to 2 from 15 bytes: cell (r, c) is byte 5r + c of them (R33, R58). -/
def writeRows012 (px : Vector Byte 15) (g : Grid) : Grid :=
  Vector.ofFn fun r => Vector.ofFn fun c =>
    if h : r.val < 3 then px[5 * r.val + c.val] else g[r.val][c.val]

/-- Rows 3 and 4 from 10 bytes: cell (r, c) is byte 5(r − 3) + c of them (R33, R59). -/
def writeRows34 (px : Vector Byte 10) (g : Grid) : Grid :=
  Vector.ofFn fun r => Vector.ofFn fun c =>
    if h : 3 ≤ r.val then px[5 * (r.val - 3) + c.val] else g[r.val][c.val]

/-- The display's `setPixel(x, y, brightness)`, x and y in 0..4 (R33, R60). -/
structure Pixel where
  x : Fin 5
  y : Fin 5
  brightness : Byte
deriving DecidableEq, Repr

/-- Cell (r, c) of the grid on the display side: `setPixel(x = c, y = r, brightness)` (R33). -/
def cellPixel (g : Grid) (r c : Fin 5) : Pixel := { x := c, y := r, brightness := g[r][c] }

/-- The 25 `setPixel` calls a request stands for: those of `flush(G)` are the cells of G (R60); every other request stands for
none. They take effect as one update, so their order here, row by row, is unobservable. -/
def setPixels : Request → List Pixel
  | .flush g => (List.finRange 5).flatMap fun r => (List.finRange 5).map fun c => cellPixel g r c
  | .setDigitalValue _ _ | .setAnalogValue _ _ | .setServoAngle _ _ | .setServoRange _ _ _ => []
  | .setServoCenter _ _ _ _ | .setPull _ _ | .enableTouch _ | .enableEdgeDetection _ _ => []
  | .subscribe _ _ _ | .unsubscribe _ _ | .stopAnimation | .scrollText _ _ | .notify _ => []

/-- DISPLAY.TEXT (R57): stop the running animation, scroll the text with a delay of 10·d milliseconds. -/
def execDisplayText (d : Byte) (raw : List Byte) (s : State) : Out :=
  s.transact fun s =>
    ((s.emit .stopAnimation).emit (.scrollText (textOf raw) (10 * d.toNat))).finish .nothing

/-- DISPLAY.PIXELS_0 (R58): rows 0 to 2, no request. -/
def execDisplayPixels0 (px : Vector Byte 15) (s : State) : Out :=
  s.transact fun s => (s.setGrid (writeRows012 px s.blk.grid)).finish .nothing

/-- DISPLAY.PIXELS_1 (R59): rows 3 and 4, then the whole grid is flushed. -/
def execDisplayPixels1 (px : Vector Byte 10) (s : State) : Out :=
  s.transact fun s =>
    let s := s.setGrid (writeRows34 px s.blk.grid)
    ((s.emit .stopAnimation).emit (.flush s.blk.grid)).finish .nothing

end Sys2Proof.Machine
end

