-- ==== Sys2Proof/Machine/Pins.lean ====
section
/-! DEFINITION. The PIN commands and the subscription registry (spec/42_pin_commands.md). -/

namespace Sys2Proof.Machine

/-- The check of R61 for the five forms that accept P_VALID_PINS. -/
def withValidPin (p : Pin) (s : State) (body : State → Out) : Out :=
  if p ∈ s.cfg.validPins then body s else s.noop (.badPin p)

/-- PIN.SET_PULL (R62). -/
def execPinSetPull (p : Pin) (code : Byte) (s : State) : Out :=
  s.transact fun s => withValidPin p s fun s =>
    match decodePull s.cfg code with
    | none => s.noop (.badMode code)
    | some mode => ((s.setPull p mode).emit (.setPull p mode)).finish .nothing

/-- PIN.SET_TOUCH (R63). -/
def execPinSetTouch (p : Pin) (s : State) : Out :=
  s.transact fun s => withValidPin p s fun s => (s.emit (.enableTouch p)).finish .nothing

/-- PIN.SET_OUTPUT (R64): the value byte passes unchanged. -/
def execPinSetOutput (p : Pin) (v : Byte) (s : State) : Out :=
  s.transact fun s => withValidPin p s fun s => (s.emit (.setDigitalValue p v)).finish .nothing

/-- `min(w, P_ANALOG_MAX)` (R65). -/
def clampDuty (c : Cfg) (w : Word16) : Word16 := if w.toNat ≤ c.analogMax.toNat then w else c.analogMax

/-- PIN.SET_PWM (R65). -/
def execPinSetPwm (p : Pin) (w : Word16) (s : State) : Out :=
  s.transact fun s => withValidPin p s fun s =>
    (s.emit (.setAnalogValue p (clampDuty s.cfg w))).finish .nothing

/-- The servo overload, selected by zero range and zero center (R66). -/
def servoRequest (p : Pin) (angle range center : Word16) : Request :=
  if range = 0 then .setServoAngle p angle
  else if center = 0 then .setServoRange p angle range
  else .setServoCenter p angle range center

/-- PIN.SET_SERVO (R66). -/
def execPinSetServo (p : Pin) (angle range center : Word16) (s : State) : Out :=
  s.transact fun s => withValidPin p s fun s =>
    (s.emit (servoRequest p angle range center)).finish .nothing

/-- `UNSUB(p)` (R68): the kind is left as it was. -/
def unsubscribePin (p : Pin) (cid : ComponentId) (s : State) : State :=
  ((s.setSub p { s.subOf p with en := false }).emit (.unsubscribe cid .pinHandler)).emit
    (.enableEdgeDetection p none)

/-- `SUB(p, k)` (R69). -/
def subscribePin (p : Pin) (k : EventKind) (cid : ComponentId) (s : State) : State :=
  ((s.setSub p { en := true, kind := k }).emit (.subscribe cid .pinHandler .dropIfBusy)).emit
    (.enableEdgeDetection p (some k))

/-- PIN.SET_EVENT (R61, R67): the pin must be in P_EVENT_PINS, which is where P_COMPONENT_ID is defined. -/
def execPinSetEvent (p : Pin) (t : Byte) (s : State) : Out :=
  s.transact fun s =>
    match componentOf s.cfg p with
    | none => s.noop (.badPin p)
    | some cid =>
      match decodeEventType s.cfg t with
      | none => s.noop (.badEventType t)
      | some none => (unsubscribePin p cid s).finish .nothing
      | some (some k) => (subscribePin p k cid s).finish .nothing

/-- The subscription count of R70. -/
def subscriptionCount (s : State) : Nat := s.cfg.eventPins.countP fun p => (s.subOf p).en

end Sys2Proof.Machine
end

