-- ==== Sys2Proof/Machine/Shared.lean ====
section
/-! DEFINITION. The shared register store (spec/46_shared_registers.md). -/

namespace Sys2Proof.Machine

/-- SHARED.DATA (R87): an index above 3 is a no-op. -/
def execSharedData (i : Byte) (v : Word16) (s : State) : Out :=
  s.transact fun s =>
    match sregIndex i.toNat with
    | none => s.noop (.badIndex i.toNat)
    | some k => (s.setSreg k v).finish .nothing

/-- SHARED_SET (R88): the value is truncated to 16 bits, not saturated. -/
def execSharedSet (idx v : Int) (s : State) : Out :=
  s.transact fun s =>
    match sregIndex idx with
    | none => s.noop (.badIndex idx)
    | some k => (s.setSreg k (trunc16 v)).finish .nothing

/-- SHARED_GET (R89): the register as a signed integer, 0 for an index outside 0..3. -/
def execSharedGet (idx : Int) (s : State) : Out :=
  s.transact fun s =>
    match sregIndex idx with
    | none => s.finish (.int 0)
    | some k => s.finish (.int (sext16 s.blk.sreg[k]))

end Sys2Proof.Machine
end

