-- ==== Sys2Proof/Machine/Command.lean ====
section
/-! DEFINITION. The command frame parser's operation, COMMAND (spec/40_command_parser.md). -/

namespace Sys2Proof.Machine

/-- Runs the rule of the form a frame decodes to (R53). The decoder yields no other row of the table
(`decodeFrame_isForm`), so the last arms are never taken; they do nothing. -/
def runForm (i : Instr) (s : State) : Out :=
  match i with
  | .displayText d t => execDisplayText d t s
  | .displayPixels0 px => execDisplayPixels0 px s
  | .displayPixels1 px => execDisplayPixels1 px s
  | .pinSetPull p m => execPinSetPull p m s
  | .pinSetTouch p => execPinSetTouch p s
  | .pinSetOutput p v => execPinSetOutput p v s
  | .pinSetPwm p w => execPinSetPwm p w s
  | .pinSetServo p a r c => execPinSetServo p a r c s
  | .pinSetEvent p t => execPinSetEvent p t s
  | .sharedData i v => execSharedData i v s
  | .command _ | .sampleEnv _ | .sampleOrient _ | .sampleAnalog _ _ => s.finish .nothing
  | .hnorm _ _ | .tilt _ | .median _ => s.finish .nothing
  | .pinEventIn _ _ _ | .buttonEventIn _ _ _ | .gestureEventIn _ _ => s.finish .nothing
  | .sharedSet _ _ | .sharedGet _ | .reset => s.finish .nothing

/-- COMMAND (R53): the frame is decoded; a frame too long is refused, a rejected frame is a silent no-op (R54), and a form
runs its rule. -/
def execCommand (frame : List Byte) (s : State) : Out :=
  s.transact fun s =>
    match decodeFrame s.cfg frame with
    | .tooLong => .refused .frameTooLong
    | .noop r => s.noop r
    | .form i => runForm i s

end Sys2Proof.Machine
end

