-- ==== Sys2Proof/Machine/Events.lean ====
section
/-! DEFINITION. The event encoders (spec/43_event_encoder.md): each writes one notification frame, the discriminator last, and
notifies its channel. -/

namespace Sys2Proof.Machine

/-- The offset of the data-format discriminator (R20, R31). -/
def discriminatorOffset : Nat := 19

/-- The PIN_EVENT frame: pin index, event code, timestamp, discriminator (R72). -/
def pinEventFrame (c : Cfg) (p : Pin) (ev : Int) (time : Nat) : List (Nat × Byte) :=
  put8 0 p ++ put8 1 (trunc8 ev) ++ put32le 2 (trunc32 time) ++ put8 discriminatorOffset c.dfPinEvent

/-- The button's mapped id: A→5, B→11, every other source its low 8 bits (R73). -/
def buttonId (c : Cfg) (src : ComponentId) : Byte :=
  if src = c.buttonAId then 5 else if src = c.buttonBId then 11 else trunc8 src

/-- The byte a code map gives a code it maps (R5). -/
def lookupCode (m : CodeMap) (code : Int) : Option Byte :=
  match m with
  | .table entries => mapFind? code entries
  | .named n => Config.anyCodeMap n code

/-- A code through its map, an unmapped code its low 8 bits (R73, R74). -/
def mappedCode (m : CodeMap) (code : Int) : Byte := (lookupCode m code).getD (trunc8 code)

/-- The button ACTION_EVENT frame (R73). -/
def buttonFrame (c : Cfg) (src : ComponentId) (ev : Int) (time : Nat) : List (Nat × Byte) :=
  put8 0 c.actButton ++ put8 1 (buttonId c src) ++ put8 2 (mappedCode c.buttonEventMap ev) ++
    put32le 3 (trunc32 time) ++ put8 discriminatorOffset c.dfActionEvent

/-- The gesture ACTION_EVENT frame (R74). -/
def gestureFrame (c : Cfg) (code : Int) (time : Nat) : List (Nat × Byte) :=
  put8 0 c.actGesture ++ put8 1 (mappedCode c.gestureMap code) ++
    put32le 2 (trunc32 time) ++ put8 discriminatorOffset c.dfActionEvent

/-- PIN_EVENT_IN (R72): an unknown component is a no-op; the registry is not consulted. -/
def execPinEventIn (cid : ComponentId) (ev : Int) (time : Nat) (s : State) : Out :=
  s.transact fun s =>
    match pinOfComponent s.cfg cid with
    | none => s.noop (.unknownComponent cid)
    | some p =>
      ((s.writeNbuf (pinBuf s.cfg) (pinEventFrame s.cfg p ev time)).emit
        (.notify (pinChannel s.cfg))).finish .nothing

/-- BUTTON_EVENT_IN (R73): every button event is encoded. -/
def execButtonEventIn (src : ComponentId) (ev : Int) (time : Nat) (s : State) : Out :=
  s.transact fun s =>
    ((s.writeNbuf (actionBuf s.cfg) (buttonFrame s.cfg src ev time)).emit
      (.notify (actionChannel s.cfg))).finish .nothing

/-- GESTURE_EVENT_IN (R74). -/
def execGestureEventIn (code : Int) (time : Nat) (s : State) : Out :=
  s.transact fun s =>
    ((s.writeNbuf (actionBuf s.cfg) (gestureFrame s.cfg code time)).emit
      (.notify (actionChannel s.cfg))).finish .nothing

end Sys2Proof.Machine
end

