-- ==== Sys2Proof/Machine/Reset.lean ====
section
/-! DEFINITION. RESET, the device power cycle (spec/70_reset_and_hazards.md). -/

namespace Sys2Proof.Machine

/-- RESET (R102): every field of `S` to its reset value, no request. -/
def execReset (s : State) : Out :=
  s.transact fun s => State.finish .nothing { s with blk := resetBlock s.cfg }

end Sys2Proof.Machine
end

