-- ==== Sys2Proof/Machine/Median.lean ====
section
/-! DEFINITION. The median filter (spec/45_median_filter.md): MEDIAN, the analog channel and the light channel. -/

namespace Sys2Proof.Machine

/-- The median of a non-empty list: the middle of the sorted list, or the floor of the half-sum of the two middle elements
(R83). -/
def medianOf (v : List Int) : Int :=
  let s := v.insertionSort (· ≤ ·)
  let n := v.length
  if n % 2 = 1 then s.getD ((n - 1) / 2) 0
  else (s.getD (n / 2 - 1) 0 + s.getD (n / 2) 0).fdiv 2

/-- MEDIAN (R83). -/
def execMedian (values : List Int) (s : State) : Out :=
  s.transact fun s =>
    if values = [] then .refused .emptyInput
    else if values.any (· < 0) then .refused .negativeSample
    else s.finish (.int (medianOf values))

/-- `n` answers of `getAnalogValue(p)`, in slot order (R84). -/
def takeSamples (p : Pin) : Nat → State → List Word16 × State
  | 0, s => ([], s)
  | n + 1, s =>
    let a := s.askAnalog (.getAnalogValue p)
    let r := takeSamples p n a.2
    (a.1 :: r.1, r.2)

/-- `ACH_FILL(p)`: every slot of the pin's ring is sampled anew, then the median (R84). -/
def achFill (p : Pin) (s : State) : Int × State :=
  let r := takeSamples p s.cfg.nAnalog s
  (medianOf (r.1.map fun w => (w.toNat : Int)), r.2.setAring p r.1)

/-- `LCH_PUSH(l)`: the sample goes into the slot at S.LIDX, the index advances modulo P_N_LIGHT, then the median of the whole
ring (R85). -/
def lchPush (l : Byte) (s : State) : Int × State :=
  let ring := s.blk.lring.set s.blk.lidx l
  (medianOf (ring.map fun b => (b.toNat : Int)), s.setLight ring ((s.blk.lidx + 1) % s.cfg.nLight))

end Sys2Proof.Machine
end

