-- ==== Sys2Proof/Machine/PiBounds.lean ====
section
/-! DEFINITION. Rational enclosures of π and 1/π, as tight as wanted, by Machin's formula π/4 = 4·arctan(1/5) − arctan(1/239): the
partial sums of the two alternating series, and the proofs that they enclose and converge. -/

namespace Sys2Proof.Machine

open Filter Topology Finset

/-- The sum of the first `n` terms of the series of arctan(1/q). -/
def atanSum (q : Nat) : Nat → Rat
  | 0 => 0
  | k + 1 => atanSum q k + (-1) ^ k * ((1 / (q : Rat)) ^ (2 * k + 1) / (2 * k + 1 : Nat))

/-- A rational below π. -/
def piLo (n : Nat) : Rat := max 3 (16 * atanSum 5 (2 * n) - 4 * atanSum 239 (2 * n + 1))

/-- A rational above π. -/
def piHi (n : Nat) : Rat := 16 * atanSum 5 (2 * n + 1) - 4 * atanSum 239 (2 * n)

theorem atanSum_cast (q n : Nat) : ((atanSum q n : Rat) : ℝ) =
    ∑ i ∈ range n, (-1) ^ i * ((q : ℝ)⁻¹ ^ (2 * i + 1) / (2 * i + 1 : ℕ)) := by
  induction n with
  | zero => simp [atanSum]
  | succ n ih => simp [atanSum, sum_range_succ, ih]

theorem atanSum_tendsto (q : Nat) (h : 2 ≤ q) :
    Tendsto (fun n => ((atanSum q n : Rat) : ℝ)) atTop (𝓝 (Real.arctan (q : ℝ)⁻¹)) := by
  have hq : (2 : ℝ) ≤ q := by exact_mod_cast h
  have hn : ‖(q : ℝ)⁻¹‖ < 1 := by
    rw [norm_inv, Real.norm_natCast]
    exact inv_lt_one_of_one_lt₀ (by linarith)
  refine (Real.hasSum_arctan hn).tendsto_sum_nat.congr fun n => ?_
  rw [atanSum_cast]
  exact Finset.sum_congr rfl fun i _ => by rw [mul_div_assoc]

theorem atanTerm_antitone (q : Nat) (h : 2 ≤ q) :
    Antitone fun i : ℕ => (q : ℝ)⁻¹ ^ (2 * i + 1) / (2 * i + 1 : ℕ) := by
  have hq : (2 : ℝ) ≤ q := by exact_mod_cast h
  have h0 : (0 : ℝ) ≤ (q : ℝ)⁻¹ := by positivity
  have h1 : (q : ℝ)⁻¹ ≤ 1 := inv_le_one_of_one_le₀ (by linarith)
  intro a b hab
  apply div_le_div₀ (by positivity) (pow_le_pow_of_le_one h0 h1 (by omega)) (by positivity)
  exact_mod_cast (by omega)

theorem atanSum_even_le (q : Nat) (h : 2 ≤ q) (k : Nat) :
    ((atanSum q (2 * k) : Rat) : ℝ) ≤ Real.arctan (q : ℝ)⁻¹ := by
  have ht := atanSum_tendsto q h
  simp only [atanSum_cast] at ht ⊢
  exact (atanTerm_antitone q h).alternating_series_le_tendsto ht k

theorem le_atanSum_odd (q : Nat) (h : 2 ≤ q) (k : Nat) :
    Real.arctan (q : ℝ)⁻¹ ≤ ((atanSum q (2 * k + 1) : Rat) : ℝ) := by
  have ht := atanSum_tendsto q h
  simp only [atanSum_cast] at ht ⊢
  exact (atanTerm_antitone q h).tendsto_le_alternating_series ht k

theorem pi_eq_machin :
    Real.pi = 16 * Real.arctan ((5 : ℕ) : ℝ)⁻¹ - 4 * Real.arctan ((239 : ℕ) : ℝ)⁻¹ := by
  have := Real.four_mul_arctan_inv_5_sub_arctan_inv_239
  push_cast
  linarith

theorem piLo_le_pi (n : Nat) : (piLo n : ℝ) ≤ Real.pi := by
  have a := atanSum_even_le 5 (by norm_num) n
  have b := le_atanSum_odd 239 (by norm_num) n
  rw [piLo, Rat.cast_max]
  refine max_le (by exact_mod_cast Real.pi_gt_three.le) ?_
  rw [pi_eq_machin]
  push_cast at *
  linarith

theorem pi_le_piHi (n : Nat) : Real.pi ≤ (piHi n : ℝ) := by
  have a := le_atanSum_odd 5 (by norm_num) n
  have b := atanSum_even_le 239 (by norm_num) n
  rw [pi_eq_machin, piHi]
  push_cast at *
  linarith

theorem piLo_pos (n : Nat) : (0 : ℝ) < piLo n := by
  have : (3 : ℝ) ≤ piLo n := by rw [piLo, Rat.cast_max]; simp
  linarith

theorem tendsto_two_mul : Tendsto (fun n : ℕ => 2 * n) atTop atTop :=
  tendsto_atTop_mono (fun n => by dsimp only [id]; omega) tendsto_id

theorem tendsto_two_mul_succ : Tendsto (fun n : ℕ => 2 * n + 1) atTop atTop :=
  tendsto_atTop_mono (fun n => by dsimp only [id]; omega) tendsto_id

theorem piLo_tendsto : Tendsto (fun n => (piLo n : ℝ)) atTop (𝓝 Real.pi) := by
  have a := (atanSum_tendsto 5 (by norm_num)).comp tendsto_two_mul
  have b := (atanSum_tendsto 239 (by norm_num)).comp tendsto_two_mul_succ
  have h : Tendsto (fun n => max (3 : ℝ)
      (16 * ((atanSum 5 (2 * n) : Rat) : ℝ) - 4 * ((atanSum 239 (2 * n + 1) : Rat) : ℝ)))
      atTop (𝓝 (max 3 Real.pi)) := by
    conv_rhs => rw [pi_eq_machin]
    exact tendsto_const_nhds.max ((a.const_mul 16).sub (b.const_mul 4))
  rw [max_eq_right Real.pi_gt_three.le] at h
  refine h.congr fun n => ?_
  simp [piLo]

theorem piHi_tendsto : Tendsto (fun n => (piHi n : ℝ)) atTop (𝓝 Real.pi) := by
  have a := (atanSum_tendsto 5 (by norm_num)).comp tendsto_two_mul_succ
  have b := (atanSum_tendsto 239 (by norm_num)).comp tendsto_two_mul
  rw [pi_eq_machin]
  refine ((a.const_mul 16).sub (b.const_mul 4)).congr fun n => ?_
  simp [piHi]

/-- The real number a constant is. -/
noncomputable def kappaReal : Kappa → ℝ
  | .pi => Real.pi
  | .invPi => Real.pi⁻¹

/-- A rational below the constant. -/
def kappaLo : Kappa → Nat → Rat
  | .pi, n => piLo n
  | .invPi, n => (piHi n)⁻¹

/-- A rational above the constant. -/
def kappaHi : Kappa → Nat → Rat
  | .pi, n => piHi n
  | .invPi, n => (piLo n)⁻¹

theorem kappaLo_le (κ : Kappa) (n : Nat) : (kappaLo κ n : ℝ) ≤ kappaReal κ := by
  cases κ with
  | pi => exact piLo_le_pi n
  | invPi =>
    simp only [kappaLo, kappaReal, Rat.cast_inv]
    exact inv_anti₀ Real.pi_pos (pi_le_piHi n)

theorem le_kappaHi (κ : Kappa) (n : Nat) : kappaReal κ ≤ (kappaHi κ n : ℝ) := by
  cases κ with
  | pi => exact pi_le_piHi n
  | invPi =>
    simp only [kappaHi, kappaReal, Rat.cast_inv]
    exact inv_anti₀ (piLo_pos n) (piLo_le_pi n)

theorem kappaLo_tendsto (κ : Kappa) : Tendsto (fun n => (kappaLo κ n : ℝ)) atTop (𝓝 (kappaReal κ)) := by
  cases κ with
  | pi => exact piLo_tendsto
  | invPi => simpa [kappaLo, kappaReal] using piHi_tendsto.inv₀ Real.pi_ne_zero

theorem kappaHi_tendsto (κ : Kappa) : Tendsto (fun n => (kappaHi κ n : ℝ)) atTop (𝓝 (kappaReal κ)) := by
  cases κ with
  | pi => exact piHi_tendsto
  | invPi => simpa [kappaHi, kappaReal] using piLo_tendsto.inv₀ Real.pi_ne_zero

theorem kappa_irrational (κ : Kappa) : Irrational (kappaReal κ) := by
  cases κ with
  | pi => exact irrational_pi
  | invPi => exact irrational_pi.inv

end Sys2Proof.Machine
end

