-- ==== Sys2Proof/Machine/Reals.lean ====
section
/-! DEFINITION. Exact arithmetic on the reals of log entry 6: the floor of `base + coef·unit`, from which sign tests and truncation
toward zero follow, and P_ROUND. With π or 1/π the floor is computed from rational enclosures; that some enclosure always settles
it is proved here, because the definition of the last resort needs the proof. With a named real it is the floor that real has. -/

namespace Sys2Proof.Machine

open Filter Topology

/-- The real number a multiple of π or 1/π denotes. -/
noncomputable def kappaVal (y : KappaReal) : ℝ := y.base + y.coef * kappaReal y.unit

/-- One end of the `n`-th enclosure of such a number. -/
def kappaRealLo (y : KappaReal) (n : Nat) : Rat := y.base + y.coef * kappaLo y.unit n

/-- The other end. -/
def kappaRealHi (y : KappaReal) (n : Nat) : Rat := y.base + y.coef * kappaHi y.unit n

theorem kappaRealLo_tendsto (y : KappaReal) :
    Tendsto (fun n => (kappaRealLo y n : ℝ)) atTop (𝓝 (kappaVal y)) := by
  simpa [kappaRealLo, kappaVal] using ((kappaLo_tendsto y.unit).const_mul (y.coef : ℝ)).const_add (y.base : ℝ)

theorem kappaRealHi_tendsto (y : KappaReal) :
    Tendsto (fun n => (kappaRealHi y n : ℝ)) atTop (𝓝 (kappaVal y)) := by
  simpa [kappaRealHi, kappaVal] using ((kappaHi_tendsto y.unit).const_mul (y.coef : ℝ)).const_add (y.base : ℝ)

theorem kappaVal_irrational {y : KappaReal} (h : y.coef ≠ 0) : Irrational (kappaVal y) :=
  ((kappa_irrational y.unit).ratCast_mul h).ratCast_add _

theorem eventually_floor_eq (q : Nat → Rat) (x : ℝ) (hx : Irrational x)
    (ht : Tendsto (fun n => (q n : ℝ)) atTop (𝓝 x)) : ∀ᶠ n in atTop, (q n).floor = ⌊x⌋ := by
  have h1 : (⌊x⌋ : ℝ) < x := lt_of_le_of_ne (Int.floor_le x) (hx.ne_int ⌊x⌋).symm
  have h2 : x < ⌊x⌋ + 1 := Int.lt_floor_add_one x
  filter_upwards [ht.eventually (lt_mem_nhds h1), ht.eventually (gt_mem_nhds h2)] with n a b
  have : ⌊((q n : Rat) : ℝ)⌋ = ⌊x⌋ := Int.floor_eq_iff.mpr ⟨a.le, b⟩
  rw [Rat.floor_cast] at this
  exact this

/-- Some enclosure of an irrational one lies between two neighbouring integers. -/
theorem exists_settled (y : KappaReal) (h : y.coef ≠ 0) :
    ∃ n, (kappaRealLo y n).floor = (kappaRealHi y n).floor := by
  obtain ⟨n, a, b⟩ := ((eventually_floor_eq _ _ (kappaVal_irrational h) (kappaRealLo_tendsto y)).and
    (eventually_floor_eq _ _ (kappaVal_irrational h) (kappaRealHi_tendsto y))).exists
  exact ⟨n, a.trans b.symm⟩

/-- The floor from the first enclosure of a list that settles it. -/
def settledFloor (y : KappaReal) : List Nat → Option Int
  | [] => none
  | n :: ns => if (kappaRealLo y n).floor = (kappaRealHi y n).floor then some (kappaRealLo y n).floor else settledFloor y ns

/-- The greatest integer not above it: directly for a rational, else from four enclosures of rising precision
(about 4, 17, 67 and 268 decimals), else from the first enclosure that settles it. -/
def kappaFloor (y : KappaReal) : Int :=
  if h : y.coef = 0 then y.base.floor
  else match settledFloor y [3, 12, 48, 192] with
    | some k => k
    | none => (kappaRealLo y (Nat.find (exists_settled y h))).floor

/-- The real number a unit is. -/
noncomputable def unitReal : RealUnit → ℝ
  | .kappa κ => kappaReal κ
  | .named n => (Config.anyReal n).val
  | .namedOverPi n => (Config.anyReal n).val / Real.pi

/-- The real number `base + coef·unit`. -/
noncomputable def exactToReal (y : ExactReal) : ℝ := y.base + y.coef * unitReal y.unit

/-- The greatest integer not above a real of the arithmetic: computed where it is a multiple of π or 1/π, else the floor the named
real has (log entry 6). -/
def exactFloor (y : ExactReal) : Int :=
  match y.unit with
  | .kappa κ => kappaFloor { base := y.base, coef := y.coef, unit := κ }
  | .named n => (Config.anyReal n).floorAt y.base y.coef
  | .namedOverPi n => (Config.anyReal n).floorOverPi y.base y.coef

/-- `−y`. -/
def exactNeg (y : ExactReal) : ExactReal := { y with base := -y.base, coef := -y.coef }

/-- `k + y` for a rational `k`. -/
def exactAdd (k : Rat) (y : ExactReal) : ExactReal := { y with base := k + y.base }

/-- `k · y` for a rational `k`. -/
def exactScale (k : Rat) (y : ExactReal) : ExactReal := { y with base := k * y.base, coef := k * y.coef }

/-- `y < 0`: its floor is negative. -/
def exactIsNeg (y : ExactReal) : Bool := exactFloor y < 0

/-- Truncation toward zero, the default of P_ROUND (R5, D28). -/
def exactTrunc (y : ExactReal) : Int :=
  if exactIsNeg y then -exactFloor (exactNeg y) else exactFloor y

/-- P_ROUND of the configuration (R5, log entry 7): a named one is given the real number itself. -/
def roundReal (c : Cfg) (y : ExactReal) : Int :=
  match c.round with
  | .towardZero => exactTrunc y
  | .named n => Config.anyRound n (fun r => r = exactToReal y)

/-- An angle as a real of the arithmetic. -/
def angleExact : RealNum → ExactReal
  | .exact a b => { base := a, coef := b, unit := .kappa .pi }
  | .named n => { base := 0, coef := 1, unit := .named n }

/-- `(rad · 180 / π) / 90`, the tilt ratio of R81: twice the angle over π, so `2b + 2a/π` of `a + b·π`. -/
def tiltRatio : RealNum → ExactReal
  | .exact a b => { base := 2 * b, coef := 2 * a, unit := .kappa .invPi }
  | .named n => { base := 0, coef := 2, unit := .namedOverPi n }

end Sys2Proof.Machine
end

