-- ==== Sys2Proof/Machine/Telemetry.lean ====
section
/-! DEFINITION. The fixed-point telemetry encoder (spec/44_telemetry.md). -/

namespace Sys2Proof.Machine

/-- `TEMP8(t) = sat_u8(t + 128)` (R78). -/
def temp8 (t : Int) : Int := satU8 (t + 128)

/-- The mask with bit `p` set when the level is not 0 (R77). -/
def withLevel (p : Pin) (level : Int) (mask : Nat) : Nat := if level ≠ 0 then mask + 2 ^ p.toNat else mask

/-- The GPIO part of DIGITAL_MASK: both questions for every pin, the level only of a digital input (R77). -/
def gpioMask : List Pin → Nat → State → Nat × State
  | [], mask, s => (mask, s)
  | p :: ps, mask, s =>
    let inp := s.askBool (.isInput p)
    let dig := inp.2.askBool (.isDigital p)
    if inp.1 && dig.1 then
      let v := dig.2.askInt (.getDigitalValue p)
      gpioMask ps (withLevel p v.1 mask) v.2
    else gpioMask ps mask dig.2

/-- The button part of DIGITAL_MASK: the level of every pin of the list (R77). -/
def levelMask : List Pin → Nat → State → Nat × State
  | [], mask, s => (mask, s)
  | q :: qs, mask, s =>
    let v := s.askInt (.getDigitalValue q)
    levelMask qs (withLevel q v.1 mask) v.2

/-- The pins of button A and button B (R77). -/
def buttonPins : List Pin := [5, 11]

/-- `DIGITAL_MASK()` (R77). -/
def digitalMask (s : State) : Nat × State :=
  let g := gpioMask s.cfg.gpioSet 0 s
  levelMask buttonPins g.1 g.2

/-- The six bytes of SAMPLE_ENV (R76). -/
def envFields (mask : Nat) (light temp : Int) : List (Nat × Byte) :=
  put32le 0 (trunc32 mask) ++ put8 4 (trunc8 (satU8 light)) ++ put8 5 (trunc8 (temp8 temp))

/-- SAMPLE_ENV (R76). -/
def execSampleEnv (buf : List Byte) (s : State) : Out :=
  s.transact fun s =>
    if buf.length < 6 then .refused .bufferTooShort
    else
      let mask := digitalMask s
      let l := mask.2.askLight .readLightLevel
      let m := lchPush l.1 l.2
      let t := m.2.askInt .getTemperature
      t.2.finish (.buffer (writeBytes buf (envFields mask.1 m.1 t.1)))

/-- `HNORM(h, facedown)` (R80). -/
def headingNorm (h : Int) (facedown : Bool) : Int :=
  if !facedown then h
  else if h ≤ 180 then 180 - h
  else 360 - (h - 180)

/-- HNORM as an operation (R80). -/
def execHnorm (h : Int) (facedown : Bool) (s : State) : Out :=
  s.transact fun s => s.finish (.int (headingNorm h facedown))

/-- One reflection of a ratio whose magnitude exceeds 1: `2 − x` above 1, `−2 − x` below −1 (R81). -/
def foldRatio (x : ExactReal) : ExactReal :=
  if exactIsNeg (exactAdd 1 (exactNeg x)) then exactAdd 2 (exactNeg x)
  else if exactIsNeg (exactAdd 1 x) then exactAdd (-2) (exactNeg x)
  else x

/-- `TILT(rad)` (R81). -/
def tiltOf (c : Cfg) (θ : RealNum) : Int := roundReal c (exactScale 1000 (foldRatio (tiltRatio θ)))

/-- TILT as an operation (R81). -/
def execTilt (θ : RealNum) (s : State) : Out :=
  s.transact fun s => s.finish (.int (tiltOf s.cfg θ))

/-- A pitch or roll field before it is written: radians × 1000, rounded, saturated (R79). -/
def angleField (c : Cfg) (θ : RealNum) : Int := satS16 (roundReal c (exactScale 1000 (angleExact θ)))

/-- The eighteen bytes of SAMPLE_ORIENT (R79): X and Z of the acceleration sign-inverted, the heading normalised by the raw Z,
the magnetic force divided by 1000 toward zero. -/
def orientFields (c : Cfg) (pr rr : RealNum) (ax ay az h mx my mz : Int) : List (Nat × Byte) :=
  put16le 0 (angleField c pr) ++ put16le 2 (angleField c rr) ++
    put16le 4 (satS16 (-ax)) ++ put16le 6 (satS16 ay) ++ put16le 8 (satS16 (-az)) ++
    put16le 10 (satU16 (headingNorm h (0 < az))) ++
    put16le 12 (satS16 (mx.tdiv 1000)) ++ put16le 14 (satS16 (my.tdiv 1000)) ++
    put16le 16 (satS16 (mz.tdiv 1000))

/-- SAMPLE_ORIENT (R79). -/
def execSampleOrient (buf : List Byte) (s : State) : Out :=
  s.transact fun s =>
    if buf.length < 18 then .refused .bufferTooShort
    else
      let pr := s.askReal .getPitchRadians
      let rr := pr.2.askReal .getRollRadians
      let ax := rr.2.askInt .getAccelX
      let ay := ax.2.askInt .getAccelY
      let az := ay.2.askInt .getAccelZ
      let h := az.2.askInt .getCompassHeading
      let mx := h.2.askInt .getCompassX
      let my := mx.2.askInt .getCompassY
      let mz := my.2.askInt .getCompassZ
      mz.2.finish (.buffer (writeBytes buf
        (orientFields s.cfg pr.1 rr.1 ax.1 ay.1 az.1 h.1 mx.1 my.1 mz.1)))

/-- SAMPLE_ANALOG (R82): buffer length, analog pin and input are checked in that order; the pull mode is forced to NONE around
the samples and restored from S.PULL. -/
def execSampleAnalog (buf : List Byte) (p : Pin) (s : State) : Out :=
  s.transact fun s =>
    if buf.length < 2 then .refused .bufferTooShort
    else if p ∉ s.cfg.analogPins then s.noop (.notAnalogPin p)
    else
      let inp := s.askBool (.isInput p)
      if !inp.1 then inp.2.noop (.notInput p)
      else
        let m := achFill p (inp.2.emit (.setPull p .none))
        (m.2.emit (.setPull p (m.2.pullOf p))).finish (.buffer (writeBytes buf (put16le 0 m.1)))

end Sys2Proof.Machine
end

