-- ==== Sys2Proof/Machine/Dispatch.lean ====
section
/-! DEFINITION. One arm per constructor of `Instr`, each a direct call of its meaning. -/

namespace Sys2Proof.Machine

def exec (i : Instr) (s : State) : Host.Outcome State Fault Refusal :=
  match i with
  | .displayText d t => Sys2Proof.Machine.execDisplayText d t s
  | .displayPixels0 px => Sys2Proof.Machine.execDisplayPixels0 px s
  | .displayPixels1 px => Sys2Proof.Machine.execDisplayPixels1 px s
  | .pinSetPull p m => Sys2Proof.Machine.execPinSetPull p m s
  | .pinSetTouch p => Sys2Proof.Machine.execPinSetTouch p s
  | .pinSetOutput p v => Sys2Proof.Machine.execPinSetOutput p v s
  | .pinSetPwm p w => Sys2Proof.Machine.execPinSetPwm p w s
  | .pinSetServo p a r c => Sys2Proof.Machine.execPinSetServo p a r c s
  | .pinSetEvent p t => Sys2Proof.Machine.execPinSetEvent p t s
  | .sharedData k v => Sys2Proof.Machine.execSharedData k v s
  | .command frame => Sys2Proof.Machine.execCommand frame s
  | .sampleEnv buf => Sys2Proof.Machine.execSampleEnv buf s
  | .sampleOrient buf => Sys2Proof.Machine.execSampleOrient buf s
  | .sampleAnalog buf p => Sys2Proof.Machine.execSampleAnalog buf p s
  | .hnorm h facedown => Sys2Proof.Machine.execHnorm h facedown s
  | .tilt rad => Sys2Proof.Machine.execTilt rad s
  | .median values => Sys2Proof.Machine.execMedian values s
  | .pinEventIn cid ev time => Sys2Proof.Machine.execPinEventIn cid ev time s
  | .buttonEventIn src ev time => Sys2Proof.Machine.execButtonEventIn src ev time s
  | .gestureEventIn code time => Sys2Proof.Machine.execGestureEventIn code time s
  | .sharedSet idx v => Sys2Proof.Machine.execSharedSet idx v s
  | .sharedGet idx => Sys2Proof.Machine.execSharedGet idx s
  | .reset => Sys2Proof.Machine.execReset s

end Sys2Proof.Machine
end

