-- ==== Sys2Proof/Machine/Step.lean ====
section
/-! DEFINITION. The machine's step: the host's next operation, run to completion (R35). -/

namespace Sys2Proof.Machine

/-- One transition is one whole operation (R35): the first of the operation port. With none there nothing happens: "nothing
sequences them but the host's order of delivery" (R21). -/
def step (s : State) : Host.Outcome State Fault Refusal :=
  match s.fetch with
  | none => .next s
  | some (op, s') => exec op.instr s'

/-- `s` with COMMAND and the frame of this word at the front of the operation port, so that the next step runs it. -/
def State.withFetchWord (s : State) (nbits w : Nat) : State := s.deliverFrame (tableFrame nbits w)

end Sys2Proof.Machine
end

