-- ==== Sys2Proof/WellFormed.lean ====
section
/-! DEFINITION. Which operand values are inside the block's contract: the text a frame can carry (R51), and the inputs that
R91 does not refuse. -/

namespace Sys2Proof

/-- The operands are inside the contract: a DISPLAY.TEXT text has at most 18 bytes (R51), a frame at most 20 (R41), a
telemetry buffer reaches the operation's highest written offset (R32), MEDIAN has a non-empty list without negative
elements (R83). Every other operand value is in the contract. -/
def Instr.wellFormed : Instr → Bool
  | .displayText _ text => text.length ≤ 18
  | .command frame => frame.length ≤ 20
  | .sampleEnv buf => 6 ≤ buf.length
  | .sampleOrient buf => 18 ≤ buf.length
  | .sampleAnalog buf _ => 2 ≤ buf.length
  | .median values => values ≠ [] && values.all (0 ≤ ·)
  | .displayPixels0 _ | .displayPixels1 _ => true
  | .pinSetPull _ _ | .pinSetTouch _ | .pinSetOutput _ _ | .pinSetPwm _ _ => true
  | .pinSetServo _ _ _ _ | .pinSetEvent _ _ | .sharedData _ _ => true
  | .hnorm _ _ | .tilt _ => true
  | .pinEventIn _ _ _ | .buttonEventIn _ _ _ | .gestureEventIn _ _ => true
  | .sharedSet _ _ | .sharedGet _ | .reset => true

end Sys2Proof
end

