-- ==== Sys2Proof/Safety.lean ====
section
/-! DEFINITION. The terms statements use: the invariant of the block's state, the next state of an operation written out, the
operation a frame stands for, what a question does, the pixels a flush sets, and the real-number meaning of angles and of P_ROUND. -/

namespace Sys2Proof.Machine

/-- The shape R14 to R20 give each field of `S`: every map has exactly its domain, every ring and buffer its length, and the
light index lies in 0..P_N_LIGHT − 1. -/
abbrev Block.Inv (c : Cfg) (b : Block) : Prop :=
  b.pull.map Prod.fst = c.validPins ∧
  b.aring.map Prod.fst = c.analogPins ∧
  (∀ e ∈ b.aring, e.2.length = c.nAnalog) ∧
  b.lring.length = c.nLight ∧
  b.lidx < c.nLight ∧
  b.sub.map Prod.fst = c.eventPins ∧
  b.nbuf.map Prod.fst = c.bufIds ∧
  (∀ e ∈ b.nbuf, e.2.length = c.notifyLen)

/-- The invariant of the machine: `S` has its shape under the machine's configuration. -/
abbrev State.Inv (s : State) : Prop := s.blk.Inv s.cfg

/-- `s` after an operation that asked nothing: block state `b`, report `r`, configuration, port, replies and draw counter as
they were. -/
def State.after (s : State) (b : Block) (r : Report) : State := { s with blk := b, last := r }

/-- The report of an operation that ended `Ok` (R26). -/
def doneReport (trace : List Interaction) (r : Result) : Report :=
  { trace := trace, result := r, noop := none, bufWrites := [] }

/-- The report of a no-op (R26, R90). -/
def noopReport (trace : List Interaction) (reason : NoopReason) : Report :=
  { trace := trace, result := .nothing, noop := some reason, bufWrites := [] }

/-- The entry of a trace is a request. -/
def isRequest : Interaction → Bool
  | .emit _ => true
  | .askBool _ _ | .askInt _ _ | .askAnalog _ _ | .askLight _ _ | .askReal _ _ => false

/-- The row whose rule an instruction runs: for COMMAND the form its frame decodes to, if it decodes to one; else itself. -/
def effective (c : Cfg) (i : Instr) : Option Instr :=
  match i with
  | .command f =>
    match decodeFrame c f with
    | .form j => some j
    | .noop _ => none
    | .tooLong => none
  | j => some j

/-- An outcome with its next state changed by `f`. -/
def mapNext (f : State → State) : Out → Out
  | .next s => .next (f s)
  | .fault r => .fault r
  | .refused r => .refused r

/-- One byte of a notification buffer (R31). -/
def State.nbufByte (s : State) (b : BufId) (k : Nat) : Option Byte := (s.nbufOf b)[k]?

/-- Byte k of a natural number, least significant byte first (R27). -/
def byteOf (n k : Nat) : Byte := BitVec.ofNat 8 (n / 256 ^ k)

/-- The signed 16-bit little-endian field of a buffer at offset i (R9). -/
def s16Field (b : List Byte) (i : Nat) : Int := (u16leAt b i).toInt

/-- The unsigned 16-bit little-endian field of a buffer at offset i (R9). -/
def u16Field (b : List Byte) (i : Nat) : Int := (u16leAt b i).toNat

/-- `s` with another light channel. -/
def State.withLight (s : State) (ring : List Byte) (idx : Nat) : State := s.setLight ring idx

/-- `s` with other analog sample buffers. -/
def State.withRings (s : State) (rings : List (Pin × List Word16)) : State :=
  { s with blk := { s.blk with aring := rings } }

/-- The real number an angle operand or answer is (log entry 6). -/
noncomputable def angleReal : RealNum → ℝ
  | .exact a b => a + b * Real.pi
  | .named n => (Config.anyReal n).val

/-- Truncation toward zero of a real, the default P_ROUND (R5, D28). -/
noncomputable def truncReal (x : ℝ) : ℤ := if x < 0 then ⌈x⌉ else ⌊x⌋

/-- P_ROUND of the configuration, on the real numbers (R5, log entry 7). -/
noncomputable def roundOf (c : Cfg) (x : ℝ) : ℤ :=
  match c.round with
  | .towardZero => truncReal x
  | .named n => Config.anyRound n (fun r => r = x)

/-- The code map gives `code` the byte `b` (R5). -/
def mapsTo (m : CodeMap) (code : Int) (b : Byte) : Prop :=
  match m with
  | .table entries => (code, b) ∈ entries
  | .named n => Config.anyCodeMap n code = some b

/-- The pixels the operation that ended in `s` set, through the requests it emitted (R33, R60). -/
def State.pixelsSet (s : State) : List Pixel :=
  s.last.trace.flatMap fun x => match x with
    | .emit r => setPixels r
    | .askBool _ _ | .askInt _ _ | .askAnalog _ _ | .askLight _ _ | .askReal _ _ => []

/-- `s` after one question: one more query counted, `x` at the end of the trace. -/
def State.asked (s : State) (x : Interaction) : State := { s.log x with draws := s.draws + 1 }

/-- What `ask` does, for one type of answer (R9, R22, log entry 3): `list s` are the answers the host has lined up for that type in
`s`, `withList s l` is `s` with `l` in their place, `free` the free answers, `entry` the entry of the trace. An answer lined up for
the query, at whatever place of the list, is what the block gets, and its entry alone leaves the list; with none lined up the
answer is the free one. Nothing else of the state changes but the trace and the count of queries, and what any other query would
get stays lined up. -/
def AskRule {κ α : Type} [DecidableEq κ] (ask : κ → State → α × State) (list : State → List (κ × α))
    (withList : State → List (κ × α) → State) (free : Nat → κ → α) (entry : κ → α → Interaction) : Prop :=
  ∀ (s : State) (q : κ),
    (∀ v, mapFind? q (list s) = some v →
      ask q s = (v, (withList s (dropReply q (list s))).asked (entry q v))) ∧
    (∀ l₁ v l₂, list s = l₁ ++ (q, v) :: l₂ → q ∉ l₁.map Prod.fst →
      ask q s = (v, (withList s (l₁ ++ l₂)).asked (entry q v))) ∧
    (q ∉ (list s).map Prod.fst → ask q s = (free s.draws q, s.asked (entry q (free s.draws q)))) ∧
    (∀ q', q' ≠ q → mapFind? q' (list (ask q s).2) = mapFind? q' (list s))

/-- TILT of R81 on the real numbers, before P_ROUND. -/
noncomputable def tiltReal (rad : ℝ) : ℝ :=
  let x := rad * 180 / Real.pi / 90
  1000 * (if 1 < x then 2 - x else if x < -1 then -2 - x else x)

end Sys2Proof.Machine
end

