-- ==== Sys2Proof/Certificates/Slice0/Obligations.lean ====
section
/-! DEFINITION. The statements for the provers. A statement whose rule carries a decision or a derivation of the spec's own is
'derived' in OBLIGATIONS.json and its docstring names the decision; every statement holds for every legal configuration, since
the configuration is a field of the state it quantifies over. -/

open Sys2Proof Sys2Proof.Machine

/-! ## Encoding -/

/-- R42: the header byte is a 3-bit class over a 5-bit subcommand. -/
def Obligations.HeaderByteIsClassOverSubcommand : Prop :=
  ∀ h : Byte, (classOf h).toNat = h.toNat / 32 ∧ (subOf h).toNat = h.toNat % 32 ∧
    header (classOf h) (subOf h) = h

/-- R48: u8, u16 LE and s16 LE fields. Every operand of a decoded form is such a field, unscaled; the TEXT delay alone is scaled,
to ten times byte 1. -/
def Obligations.OperandFieldsAreAssembledFromBytes : Prop :=
  (∀ (f : List Byte) (i : Nat) (b : Byte), f[i]? = some b → u8At f i = b) ∧
  (∀ (f : List Byte) (i : Nat),
    (u16leAt f i).toNat = (u8At f i).toNat + 256 * (u8At f (i + 1)).toNat ∧
    sext16 (u16leAt f i) = if (u16leAt f i).toNat < 32768 then ((u16leAt f i).toNat : Int)
      else (u16leAt f i).toNat - 65536) ∧
  (∀ (c : Cfg) (f : List Byte) (i : Instr), decodeFrame c f = .form i →
    match i with
    | .displayText d text => d = u8At f 1 ∧ text = f.drop 2
    | .displayPixels0 px => ∀ k (h : k < 15), px[k] = u8At f (1 + k)
    | .displayPixels1 px => ∀ k (h : k < 10), px[k] = u8At f (1 + k)
    | .pinSetPull p m => p = u8At f 1 ∧ m = u8At f 2
    | .pinSetTouch p => p = u8At f 1
    | .pinSetOutput p v => p = u8At f 1 ∧ v = u8At f 2
    | .pinSetPwm p w => p = u8At f 1 ∧ w = u16leAt f 2
    | .pinSetServo p a r m => p = u8At f 1 ∧ a = u16leAt f 2 ∧ r = u16leAt f 5 ∧ m = u16leAt f 7
    | .pinSetEvent p t => p = u8At f 1 ∧ t = u8At f 2
    | .sharedData k v => k = u8At f 1 ∧ v = u16leAt f 2
    | _ => False) ∧
  (∀ (s : State) (d : Byte) (raw : List Byte), s.cfg.legal = true → ∃ t text, exec (.displayText d raw) s = .next t ∧
    Interaction.emit (.scrollText text (10 * d.toNat)) ∈ t.last.trace)

/-- R27 for the buffers the block writes: bits 7:0 of a 16-bit field go to byte i and bits 15:8 to byte i+1; byte k of a
32-bit field goes to byte i+k. -/
def Obligations.WrittenFieldsAreLittleEndian : Prop :=
  (∀ (b : List Byte) (i : Nat) (v : Int), i + 1 < b.length →
    u16Field (writeBytes b (put16le i v)) i = v % 65536) ∧
  (∀ (b : List Byte) (i : Nat) (v : Word32), i + 3 < b.length →
    ∀ k, k < 4 → (writeBytes b (put32le i v))[i + k]? = some (byteOf v.toNat k))

/-- Decode and encode agree on all ten wire forms with every operand value (encoding table of R52; the assembler's bytes are
the spec's decision D2). -/
def Obligations.DecodeOfEncodeGivesTheForm : Prop :=
  ∀ (c : Cfg) (i : Instr), c.legal = true → i.isForm = true → i.wellFormed = true →
    ∃ f, encode c i = some f ∧ decodeFrame c f = .form i

/-- What the decoder yields is a well-formed wire form of a frame of 2 to 20 bytes, and the form's own encoding decodes to it
again (R50, R51, R53). -/
def Obligations.DecodedFormsAreWellFormed : Prop :=
  ∀ (c : Cfg) (f : List Byte) (i : Instr), c.legal = true → decodeFrame c f = .form i →
    i.isForm = true ∧ i.wellFormed = true ∧ 2 ≤ f.length ∧ f.length ≤ 20 ∧
    ∃ g, encode c i = some g ∧ decodeFrame c g = .form i

/-- Bytes a form does not name are not read (R49, decision D9) and the SHARED_DATA subcommand is not decoded (R46, decision D8):
trailing bytes of a fixed form, byte 4 of SET_SERVO and the five subcommand bits never change what is decoded. -/
def Obligations.UnnamedBytesNeverChangeDecoding : Prop :=
  (∀ (c : Cfg) (f extra : List Byte) (i : Instr), c.legal = true → decodeFrame c f = .form i →
    (∀ d t, i ≠ .displayText d t) → (f ++ extra).length ≤ 20 → decodeFrame c (f ++ extra) = .form i) ∧
  (∀ (c : Cfg) (f : List Byte) (b : Byte) (p : Pin) (a r m : Word16), c.legal = true →
    decodeFrame c f = .form (.pinSetServo p a r m) → decodeFrame c (f.set 4 b) = .form (.pinSetServo p a r m)) ∧
  (∀ (c : Cfg) (u v : BitVec 5) (body : List Byte), c.legal = true →
    decodeFrame c (header c.clsShared u :: body) = decodeFrame c (header c.clsShared v :: body))

/-- Words written out from R47 and the test binding T decode to the form they stand for. -/
def Obligations.WrittenWordsDecodeToTheirForms : Prop :=
  decodeFrame Cfg.bindingT [0x20, 0x0A, 0x48, 0x69] = .form (.displayText 10 [0x48, 0x69]) ∧
  decodeFrame Cfg.bindingT [0x43, 0x00, 0xFF, 0x03] = .form (.pinSetPwm 0 1023) ∧
  decodeFrame Cfg.bindingT [0x44, 0x00, 0x5A, 0x00, 0xEE, 0xB4, 0x00, 0x10, 0x01] =
    .form (.pinSetServo 0 90 180 272) ∧
  decodeFrame Cfg.bindingT [0x75, 0x02, 0x9C, 0xFF] = .form (.sharedData 2 (-100)) ∧
  decodeFrame Cfg.bindingT [0x5F, 0x00, 0x00] = .noop (.unknownSub 31) ∧
  decodeFrame Cfg.bindingT [0xE0, 0x00] = .noop (.unknownClass 7)

/-! ## The step and the parser -/

/-- One step runs the host's next operation whole; a delivered frame that decodes to a form runs that form; without an
operation nothing changes. The port is the model's (log entry 4); atomicity is R35. -/
def Obligations.StepRunsTheNextOperation : Prop :=
  (∀ (s : State) (op : Operation) (rest : List Operation), s.port = op :: rest →
    step s = exec op.instr { s with port := rest }) ∧
  (∀ (s : State) (f : List Byte) (rest : List Operation) (i : Instr), s.port = .command f :: rest →
    s.cfg.legal = true → decodeFrame s.cfg f = .form i → step s = exec i { s with port := rest }) ∧
  (∀ s : State, s.port = [] → step s = .next s)

/-- COMMAND on a frame that decodes to a form has exactly the effect of the form, and completes (R53, decisions D5 to D7). -/
def Obligations.CommandRunsTheDecodedForm : Prop :=
  ∀ (s : State) (f : List Byte) (i : Instr), s.cfg.legal = true → decodeFrame s.cfg f = .form i →
    ∃ t, exec (.command f) s = .next t ∧ exec i s = .next t

/-- COMMAND's checks in the order of R53 and R92: length over 20, length 0, class, subcommand, minimum length; each with its
label and recorded value (R90) and with no effect (decisions D5 to D7, D45). -/
def Obligations.CommandRejectsInTheWrittenOrder : Prop :=
  ∀ (s : State) (f : List Byte), s.cfg.legal = true →
    (20 < f.length → exec (.command f) s = .refused .frameTooLong) ∧
    (f = [] → exec (.command f) s = .next (s.after s.blk (noopReport [] (.shortFrame 0)))) ∧
    (∀ cls sub body, f = header cls sub :: body → f.length ≤ 20 →
      (cls ≠ s.cfg.clsDisplay → cls ≠ s.cfg.clsPin → cls ≠ s.cfg.clsShared →
        exec (.command f) s = .next (s.after s.blk (noopReport [] (.unknownClass cls)))) ∧
      (cls = s.cfg.clsDisplay → sub ∉ [s.cfg.subText, s.cfg.subPixels0, s.cfg.subPixels1] →
        exec (.command f) s = .next (s.after s.blk (noopReport [] (.unknownSub sub)))) ∧
      (cls = s.cfg.clsPin → sub ∉ [s.cfg.subSetPull, s.cfg.subSetTouch, s.cfg.subSetOutput, s.cfg.subSetPwm,
          s.cfg.subSetServo, s.cfg.subSetEvent] →
        exec (.command f) s = .next (s.after s.blk (noopReport [] (.unknownSub sub)))) ∧
      (∀ k, selectForm s.cfg cls sub = .ok k → f.length < minLength k →
        exec (.command f) s = .next (s.after s.blk (noopReport [] (.shortFrame f.length)))))

/-- R54: COMMAND never surfaces an error. Every frame the port can carry completes with nothing returned; a rejected one
changes no state, asks nothing and emits nothing. -/
def Obligations.CommandNeverSurfacesAnError : Prop :=
  ∀ (s : State) (f : List Byte), s.cfg.legal = true → f.length ≤ 20 →
    ∃ t, exec (.command f) s = .next t ∧ t.last.result = .nothing ∧
      (∀ r, t.last.noop = some r → t = s.after s.blk (noopReport [] r))

/-! ## Display compositor -/

/-- DISPLAY.TEXT (R57; the cut at 0x00 and the stopAnimation are the spec's decisions D10 and D11): two requests, no state. -/
def Obligations.TextStopsTheAnimationThenScrolls : Prop :=
  ∀ (s : State) (d : Byte) (text rest : List Byte), s.cfg.legal = true → 0 ∉ text →
    (rest = [] ∨ ∃ tail, rest = 0 :: tail) →
    exec (.displayText d (text ++ rest)) s =
      .next (s.after s.blk (doneReport [.emit .stopAnimation, .emit (.scrollText text (10 * d.toNat))] .nothing))

/-- R58: PIXELS_0 stores its fifteen bytes, each unchanged, in rows 0 to 2 and does nothing else; a frame shorter than 16 bytes
is a no-op, and bytes after the fifteenth are not read. -/
def Obligations.Pixels0WritesRowsZeroToTwo : Prop :=
  ∀ s : State, s.cfg.legal = true →
    (∀ px : Vector Byte 15, ∃ g : Grid,
      exec (.displayPixels0 px) s = .next (s.after { s.blk with grid := g } (doneReport [] .nothing)) ∧
      ∀ r c : Fin 5, (∀ h : r.val < 3, g[r][c] = px[5 * r.val + c.val]) ∧
        (3 ≤ r.val → g[r][c] = s.blk.grid[r][c])) ∧
    (∀ f body : List Byte, f = header s.cfg.clsDisplay s.cfg.subPixels0 :: body → f.length ≤ 20 →
      (f.length < 16 →
        exec (.command f) s = .next (s.after s.blk (noopReport [] (.shortFrame f.length)))) ∧
      (16 ≤ f.length → ∃ g : Grid,
        exec (.command f) s = .next (s.after { s.blk with grid := g } (doneReport [] .nothing)) ∧
        ∀ r c : Fin 5, (r.val < 3 → f[1 + 5 * r.val + c.val]? = some g[r][c]) ∧
          (3 ≤ r.val → g[r][c] = s.blk.grid[r][c])))

/-- DISPLAY.PIXELS_1 (R59, R60; the stopAnimation is the spec's decision D11, the mapping D13): rows 3 and 4, then the whole
grid as it stands is flushed, rows 0 to 2 being what they were. -/
def Obligations.Pixels1WritesRowsThenFlushesTheGrid : Prop :=
  ∀ (s : State) (px : Vector Byte 10), s.cfg.legal = true → ∃ g : Grid,
    exec (.displayPixels1 px) s = .next (s.after { s.blk with grid := g }
      (doneReport [.emit .stopAnimation, .emit (.flush g)] .nothing)) ∧
    ∀ r c : Fin 5, (∀ h : 3 ≤ r.val, g[r][c] = px[5 * (r.val - 3) + c.val]) ∧
      (r.val < 3 → g[r][c] = s.blk.grid[r][c])

/-- Two frames, one picture: PIXELS_0 then PIXELS_1, with any text between, ends with one flush of the 25 cells of the two
writes (R56, R59, decisions D12, D13). -/
def Obligations.TwoPixelFramesFlushTheCombinedGrid : Prop :=
  ∀ (s : State) (px : Vector Byte 15) (qx : Vector Byte 10) (d : Byte) (text : List Byte), s.cfg.legal = true →
    ∃ t₁ t₂ t₃ g, exec (.displayPixels0 px) s = .next t₁ ∧ exec (.displayText d text) t₁ = .next t₂ ∧
      exec (.displayPixels1 qx) t₂ = .next t₃ ∧
      t₁.last.trace = [] ∧ (∀ g', Interaction.emit (.flush g') ∉ t₂.last.trace) ∧
      t₃.last.trace = [.emit .stopAnimation, .emit (.flush g)] ∧ t₃.blk = { s.blk with grid := g } ∧
      ∀ r c : Fin 5, (∀ h : r.val < 3, g[r][c] = px[5 * r.val + c.val]) ∧
        (∀ h : 3 ≤ r.val, g[r][c] = qx[5 * (r.val - 3) + c.val])

/-! ## PIN commands -/

/-- PIN.SET_PULL (R62, decisions D17, D47): the mode of the code is stored for that pin alone and requested; an unknown code
is a no-op. -/
def Obligations.SetPullPersistsAndRequestsTheMode : Prop :=
  ∀ (s : State) (p : Pin) (code : Byte), s.cfg.legal = true → p ∈ s.cfg.validPins →
    (∀ m, (code, m) ∈ s.cfg.pullDecode → ∃ t, exec (.pinSetPull p code) s = .next t ∧
      t = s.after { s.blk with pull := t.blk.pull } (doneReport [.emit (.setPull p m)] .nothing) ∧
      t.pullOf p = m ∧ ∀ q, q ≠ p → t.pullOf q = s.pullOf q) ∧
    ((∀ m, (code, m) ∉ s.cfg.pullDecode) →
      exec (.pinSetPull p code) s = .next (s.after s.blk (noopReport [] (.badMode code))))

/-- R63: SET_TOUCH asks for touch sensing on a valid pin and writes nothing; another pin is a no-op, so is a frame of one byte,
and bytes after offset 1 are ignored. -/
def Obligations.SetTouchEmitsEnableTouchOnly : Prop :=
  ∀ s : State, s.cfg.legal = true →
    (∀ p : Pin, p ∈ s.cfg.validPins →
      exec (.pinSetTouch p) s = .next (s.after s.blk (doneReport [.emit (.enableTouch p)] .nothing))) ∧
    (∀ p : Pin, p ∉ s.cfg.validPins →
      exec (.pinSetTouch p) s = .next (s.after s.blk (noopReport [] (.badPin p)))) ∧
    exec (.command [header s.cfg.clsPin s.cfg.subSetTouch]) s =
      .next (s.after s.blk (noopReport [] (.shortFrame 1))) ∧
    (∀ (p : Pin) (extra : List Byte), extra.length ≤ 18 →
      exec (.command (header s.cfg.clsPin s.cfg.subSetTouch :: p :: extra)) s = exec (.pinSetTouch p) s)

/-- PIN.SET_OUTPUT (R64, decision D18): the value byte passes unreduced. -/
def Obligations.SetOutputPassesTheByteUnchanged : Prop :=
  ∀ (s : State) (p : Pin) (v : Byte), s.cfg.legal = true → p ∈ s.cfg.validPins →
    exec (.pinSetOutput p v) s = .next (s.after s.blk (doneReport [.emit (.setDigitalValue p v)] .nothing))

/-- PIN.SET_PWM (R65, decision D43): the duty is clamped above by P_ANALOG_MAX and not otherwise changed. -/
def Obligations.SetPwmClampsTheDuty : Prop :=
  ∀ (s : State) (p : Pin) (w : Word16), s.cfg.legal = true → p ∈ s.cfg.validPins →
    ∃ v : Word16, v.toNat = min w.toNat s.cfg.analogMax.toNat ∧
      exec (.pinSetPwm p w) s = .next (s.after s.blk (doneReport [.emit (.setAnalogValue p v)] .nothing))

/-- PIN.SET_SERVO (R66, decision D44): the overload is selected by zero range, then zero center; angle 0 is no sentinel. -/
def Obligations.SetServoSelectsTheOverloadByZero : Prop :=
  ∀ (s : State) (p : Pin) (angle range center : Word16), s.cfg.legal = true → p ∈ s.cfg.validPins →
    (range = 0 → exec (.pinSetServo p angle range center) s =
      .next (s.after s.blk (doneReport [.emit (.setServoAngle p angle)] .nothing))) ∧
    (range ≠ 0 → center = 0 → exec (.pinSetServo p angle range center) s =
      .next (s.after s.blk (doneReport [.emit (.setServoRange p angle range)] .nothing))) ∧
    (range ≠ 0 → center ≠ 0 → exec (.pinSetServo p angle range center) s =
      .next (s.after s.blk (doneReport [.emit (.setServoCenter p angle range center)] .nothing)))

/-- R61 (decisions D15, D16): a pin outside the form's set is a no-op BAD_PIN whatever the other operands are: the pin check
comes first. -/
def Obligations.PinFormsRejectUnacceptedPinsFirst : Prop :=
  ∀ (s : State) (p : Pin), s.cfg.legal = true →
    (p ∉ s.cfg.validPins → ∀ i, (∃ m, i = .pinSetPull p m) ∨ i = .pinSetTouch p ∨ (∃ v, i = .pinSetOutput p v) ∨
        (∃ w, i = .pinSetPwm p w) ∨ (∃ a r c, i = .pinSetServo p a r c) →
      exec i s = .next (s.after s.blk (noopReport [] (.badPin p)))) ∧
    (p ∉ s.cfg.eventPins → ∀ type,
      exec (.pinSetEvent p type) s = .next (s.after s.blk (noopReport [] (.badPin p))))

/-- SUB (R67, R69, decision D19): the entry becomes (true, kind), the component is subscribed with drop-if-busy, then detection of
that kind is enabled; other entries are untouched. -/
def Obligations.SetEventSubscribes : Prop :=
  ∀ (s : State) (p : Pin) (cid : ComponentId) (type : Byte) (k : EventKind), s.cfg.legal = true →
    (p, cid) ∈ s.cfg.identifierTable →
    (type, k) ∈ [(s.cfg.evtEdge, EventKind.edge), (s.cfg.evtPulse, .pulse), (s.cfg.evtTouch, .touch)] →
    ∃ t, exec (.pinSetEvent p type) s = .next t ∧
      t = s.after { s.blk with sub := t.blk.sub } (doneReport [.emit (.subscribe cid .pinHandler .dropIfBusy),
        .emit (.enableEdgeDetection p (some k))] .nothing) ∧
      t.subOf p = { en := true, kind := k } ∧ ∀ q, q ≠ p → t.subOf q = s.subOf q

/-- UNSUB (R67, R68, decision D19): the entry is disabled and keeps its kind, the component is unsubscribed, then detection is
disabled; a type that is none of P_EVT_* is a no-op. -/
def Obligations.SetEventUnsubscribes : Prop :=
  ∀ (s : State) (p : Pin) (cid : ComponentId), s.cfg.legal = true → (p, cid) ∈ s.cfg.identifierTable →
    (∃ t, exec (.pinSetEvent p s.cfg.evtNone) s = .next t ∧
      t = s.after { s.blk with sub := t.blk.sub } (doneReport [.emit (.unsubscribe cid .pinHandler),
        .emit (.enableEdgeDetection p none)] .nothing) ∧
      t.subOf p = { en := false, kind := (s.subOf p).kind } ∧ ∀ q, q ≠ p → t.subOf q = s.subOf q) ∧
    (∀ type, type ∉ [s.cfg.evtNone, s.cfg.evtEdge, s.cfg.evtPulse, s.cfg.evtTouch] →
      exec (.pinSetEvent p type) s = .next (s.after s.blk (noopReport [] (.badEventType type))))

/-- R70: the subscription count is the number of enabled event pins, at most all of them; a no-op SET_EVENT leaves it, an invalid
pin is such a no-op, and unsubscribing a subscribed pin lowers it by one and disables detection. -/
def Obligations.SubscriptionCountFollowsSetEvent : Prop :=
  ∀ s : State, s.cfg.legal = true →
    subscriptionCount s = (s.cfg.eventPins.filter fun p => (s.subOf p).en).length ∧
    subscriptionCount s ≤ s.cfg.eventPins.length ∧
    (∀ p type t, exec (.pinSetEvent p type) s = .next t → t.last.noop ≠ none →
      subscriptionCount t = subscriptionCount s) ∧
    (∀ p type, p ∉ s.cfg.eventPins → ∃ t, exec (.pinSetEvent p type) s = .next t ∧ t.last.noop = some (.badPin p) ∧
      subscriptionCount t = subscriptionCount s) ∧
    (∀ p, p ∈ s.cfg.eventPins → (s.subOf p).en = true → ∃ t, exec (.pinSetEvent p s.cfg.evtNone) s = .next t ∧
      (t.subOf p).en = false ∧ subscriptionCount t + 1 = subscriptionCount s ∧
      Interaction.emit (.enableEdgeDetection p none) ∈ t.last.trace)

/-! ## Shared registers -/

/-- R87: SHARED.DATA writes the signed 16-bit little-endian value of bytes 2 and 3 to the register byte 1 names, and no other
register; an index above 3 is a no-op, so is a frame shorter than 4; the subcommand bits are ignored. -/
def Obligations.SharedDataWritesTheIndexedRegister : Prop :=
  ∀ s : State, s.cfg.legal = true →
    (∀ (i : Byte) (v : Word16),
      (∀ h : i.toNat < 4, exec (.sharedData i v) s =
        .next (s.after { s.blk with sreg := s.blk.sreg.set i.toNat v } (doneReport [] .nothing))) ∧
      (3 < i.toNat → exec (.sharedData i v) s = .next (s.after s.blk (noopReport [] (.badIndex i.toNat))))) ∧
    (∀ (sub : BitVec 5) (f body : List Byte), f = header s.cfg.clsShared sub :: body → f.length ≤ 20 →
      (f.length < 4 → exec (.command f) s = .next (s.after s.blk (noopReport [] (.shortFrame f.length)))) ∧
      (∀ i lo hi extra, body = i :: lo :: hi :: extra → ∃ v : Word16,
        exec (.command f) s = exec (.sharedData i v) s ∧
        v.toInt = if lo.toNat + 256 * hi.toNat < 32768 then (lo.toNat + 256 * hi.toNat : Int)
          else lo.toNat + 256 * hi.toNat - 65536))

/-- SHARED_SET (R88, decision D36): the value is truncated to signed 16 bits, not saturated; an index outside 0..3 is a no-op. -/
def Obligations.SharedSetTruncatesTheValue : Prop :=
  ∀ (s : State) (idx v : Int), s.cfg.legal = true →
    (∀ k : Fin 4, idx = k.val → ∃ w : Word16,
      exec (.sharedSet idx v) s = .next (s.after { s.blk with sreg := s.blk.sreg.set k w } (doneReport [] .nothing)) ∧
      -32768 ≤ w.toInt ∧ w.toInt ≤ 32767 ∧ (65536 : Int) ∣ v - w.toInt) ∧
    (idx < 0 ∨ 3 < idx → exec (.sharedSet idx v) s = .next (s.after s.blk (noopReport [] (.badIndex idx))))

/-- SHARED_GET (R89, decision D36): returns the register as a signed integer, 0 outside 0..3, and writes nothing. -/
def Obligations.SharedGetReturnsTheRegisterOrZero : Prop :=
  ∀ (s : State) (idx : Int), s.cfg.legal = true →
    (∀ k : Fin 4, idx = k.val →
      exec (.sharedGet idx) s = .next (s.after s.blk (doneReport [] (.int s.blk.sreg[k].toInt)))) ∧
    (idx < 0 ∨ 3 < idx → exec (.sharedGet idx) s = .next (s.after s.blk (doneReport [] (.int 0))))

/-! ## Median filter -/

/-- MEDIAN (R83, decision D42): of any ascending arrangement of the values, the middle one for an odd number of them, else the
floor of half the sum of the two middle ones; it lies between the least and the greatest, and no state is written. -/
def Obligations.MedianIsTheMiddleOfTheSortedValues : Prop :=
  ∀ (s : State) (values l : List Int), s.cfg.legal = true → values ≠ [] → (∀ v ∈ values, 0 ≤ v) →
    l.Perm values → l.Pairwise (· ≤ ·) →
    ∃ m, exec (.median values) s = .next (s.after s.blk (doneReport [] (.int m))) ∧
      (∀ k, values.length = 2 * k + 1 → l[k]? = some m) ∧
      (∀ k a b, values.length = 2 * k + 2 → l[k]? = some a → l[k + 1]? = some b → m = (a + b) / 2) ∧
      (∃ v ∈ values, v ≤ m) ∧ (∃ v ∈ values, m ≤ v)

/-- R84: ACH_FILL samples every slot of the pin's ring anew, in slot order, and returns the median of those answers; nothing of
an earlier ring takes part, and no other operation but SAMPLE_ANALOG (and RESET) writes a ring. -/
def Obligations.AnalogFillResamplesEverySlot : Prop :=
  (∀ (s : State) (p : Pin), ∃ ring : List Word16, ring.length = s.cfg.nAnalog ∧
    (achFill p s).1 = medianOf (ring.map fun w => (w.toNat : Int)) ∧
    (achFill p s).2.aringOf p = ring ∧
    (achFill p s).2.last.trace =
      s.last.trace ++ ring.map (fun w => Interaction.askAnalog (.getAnalogValue p) w) ∧
    ∀ rings, (achFill p (s.withRings rings)).1 = (achFill p s).1) ∧
  (∀ (i : Instr) (s t : State), exec i s = .next t → (∀ b p, i ≠ .sampleAnalog b p) → i ≠ .reset →
    t.blk.aring = s.blk.aring)

/-- R86: the two channels are independent and MEDIAN is deterministic: SAMPLE_ANALOG neither reads nor writes the light channel,
SAMPLE_ENV neither reads nor writes the analog rings, and MEDIAN depends on its values only as a multiset and uses no state. -/
def Obligations.MedianChannelsAreIndependent : Prop :=
  (∀ (s : State) (buf : List Byte) (p : Pin) (ring : List Byte) (idx : Nat),
    exec (.sampleAnalog buf p) (s.withLight ring idx) =
      mapNext (fun t => t.withLight ring idx) (exec (.sampleAnalog buf p) s)) ∧
  (∀ (s : State) (buf : List Byte) (rings : List (Pin × List Word16)),
    exec (.sampleEnv buf) (s.withRings rings) =
      mapNext (fun t => t.withRings rings) (exec (.sampleEnv buf) s)) ∧
  (∀ (s : State) (v w : List Int), v.Perm w → exec (.median v) s = exec (.median w) s) ∧
  (∀ (s s' t : State) (v : List Int), s.cfg.legal = true → s'.cfg.legal = true → exec (.median v) s = .next t →
    t = s.after s.blk t.last ∧ exec (.median v) s' = .next (s'.after s'.blk t.last))

/-! ## Telemetry -/

/-- DIGITAL_MASK (R77, decision D32): with the host's answers lined up, bit k is set exactly for a GPIO pin that is a digital input
with a level other than 0, and for buttons 5 and 11 with a level other than 0; every other bit is 0. -/
def Obligations.DigitalMaskHasOneBitPerPin : Prop :=
  ∀ (s : State) (inp dig : Pin → Bool) (lvl : Pin → Int), s.cfg.legal = true →
    (∀ p ∈ s.cfg.gpioSet, mapFind? (.isInput p) s.replies.bools = some (inp p) ∧
      mapFind? (.isDigital p) s.replies.bools = some (dig p)) →
    (∀ p, p ∈ s.cfg.gpioSet ∨ p = 5 ∨ p = 11 → mapFind? (.getDigitalValue p) s.replies.ints = some (lvl p)) →
    (digitalMask s).1 < 2 ^ 32 ∧
    ∀ p : Pin, (digitalMask s).1.testBit p.toNat = true ↔
      (p ∈ s.cfg.gpioSet ∧ inp p = true ∧ dig p = true ∧ lvl p ≠ 0) ∨ ((p = 5 ∨ p = 11) ∧ lvl p ≠ 0)

/-- SAMPLE_ENV (R76, R78, R85, decisions D31, D33): the mask in bytes 0..3, the median of the light ring after the fresh sample went
into the slot at the index in byte 4, the temperature plus 128 saturated in byte 5; the index advances modulo P_N_LIGHT and no
other byte or field changes. -/
def Obligations.SampleEnvWritesSixBytesAndPushesLight : Prop :=
  ∀ (s : State) (buf : List Byte), s.cfg.legal = true → s.Inv → 6 ≤ buf.length →
    ∃ (l : Byte) (temp : Int) (b : List Byte) (t : State), exec (.sampleEnv buf) s = .next t ∧
      t.last = doneReport ((digitalMask s.begin).2.last.trace ++
        [.askLight .readLightLevel l, .askInt .getTemperature temp]) (.buffer b) ∧
      t.cfg = s.cfg ∧ t.port = s.port ∧
      t.blk = { s.blk with lring := s.blk.lring.set s.blk.lidx l, lidx := (s.blk.lidx + 1) % s.cfg.nLight } ∧
      b.length = buf.length ∧
      (∀ k, k < 4 → b[k]? = some (byteOf (digitalMask s.begin).1 k)) ∧
      (∃ m, b[4]? = some m ∧
        (m.toNat : Int) = medianOf ((s.blk.lring.set s.blk.lidx l).map fun x => (x.toNat : Int))) ∧
      (∃ m, b[5]? = some m ∧ (m.toNat : Int) = max 0 (min 255 (temp + 128))) ∧
      (∀ k, 6 ≤ k → b[k]? = buf[k]?)

/-- SAMPLE_ORIENT (R79, R80, decisions D27 to D30): nine queries, nine little-endian fields, each saturated; X and Z acceleration
inverted, the heading normalised by the raw Z, magnetic force divided by 1000 toward zero; pitch and roll are radians × 1000 through
P_ROUND, whatever function it is, and under its default truncated toward zero. No other byte and no state changes. -/
def Obligations.SampleOrientWritesNineFields : Prop :=
  ∀ (s : State) (buf : List Byte), s.cfg.legal = true → 18 ≤ buf.length →
    ∃ (pr rr : RealNum) (ax ay az h mx my mz : Int) (b : List Byte) (t : State),
      exec (.sampleOrient buf) s = .next t ∧
      t.last = doneReport [.askReal .getPitchRadians pr, .askReal .getRollRadians rr, .askInt .getAccelX ax,
        .askInt .getAccelY ay, .askInt .getAccelZ az, .askInt .getCompassHeading h, .askInt .getCompassX mx,
        .askInt .getCompassY my, .askInt .getCompassZ mz] (.buffer b) ∧
      t.cfg = s.cfg ∧ t.port = s.port ∧ t.blk = s.blk ∧ b.length = buf.length ∧
      s16Field b 0 = max (-32768) (min 32767 (roundOf s.cfg (1000 * angleReal pr))) ∧
      s16Field b 2 = max (-32768) (min 32767 (roundOf s.cfg (1000 * angleReal rr))) ∧
      (s.cfg.round = .towardZero →
        s16Field b 0 = max (-32768) (min 32767 (truncReal (1000 * angleReal pr))) ∧
        s16Field b 2 = max (-32768) (min 32767 (truncReal (1000 * angleReal rr)))) ∧
      s16Field b 4 = max (-32768) (min 32767 (-ax)) ∧
      s16Field b 6 = max (-32768) (min 32767 ay) ∧
      s16Field b 8 = max (-32768) (min 32767 (-az)) ∧
      u16Field b 10 = max 0 (min 65535 (if 0 < az then (if h ≤ 180 then 180 - h else 540 - h) else h)) ∧
      s16Field b 12 = max (-32768) (min 32767 (mx.tdiv 1000)) ∧
      s16Field b 14 = max (-32768) (min 32767 (my.tdiv 1000)) ∧
      s16Field b 16 = max (-32768) (min 32767 (mz.tdiv 1000)) ∧
      (∀ k, 18 ≤ k → b[k]? = buf[k]?)

/-- SAMPLE_ANALOG on an input pin (R82, R84, decision D35): pull-none, one sample per slot in order, the pin's configured pull
restored; the ring holds the samples, bytes 0..1 their median, little-endian, and nothing else changes. -/
def Obligations.SampleAnalogRefillsTheRingAndRestoresPull : Prop :=
  ∀ (s : State) (buf : List Byte) (p : Pin), s.cfg.legal = true → p ∈ s.cfg.analogPins → 2 ≤ buf.length →
    mapFind? (.isInput p) s.replies.bools = some true →
    ∃ (ring : List Word16) (b : List Byte) (t : State), exec (.sampleAnalog buf p) s = .next t ∧
      ring.length = s.cfg.nAnalog ∧
      t.last = doneReport ([.askBool (.isInput p) true, .emit (.setPull p .none)] ++
        ring.map (fun w => Interaction.askAnalog (.getAnalogValue p) w) ++ [.emit (.setPull p (s.pullOf p))])
        (.buffer b) ∧
      t.cfg = s.cfg ∧ t.port = s.port ∧ t.blk = { s.blk with aring := t.blk.aring } ∧
      t.aringOf p = ring ∧ (∀ q, q ≠ p → t.aringOf q = s.aringOf q) ∧
      b.length = buf.length ∧ u16Field b 0 = medianOf (ring.map fun w => (w.toNat : Int)) ∧
      (∀ k, 2 ≤ k → b[k]? = buf[k]?)

/-- SAMPLE_ANALOG's no-ops (R82, R92, decision D35): a pin without a ring asks nothing; a pin that is not an input leaves only
the question in the trace. Neither changes the block's state. -/
def Obligations.SampleAnalogOnOtherPinsIsSilent : Prop :=
  ∀ (s : State) (buf : List Byte) (p : Pin), s.cfg.legal = true → 2 ≤ buf.length →
    (p ∉ s.cfg.analogPins →
      exec (.sampleAnalog buf p) s = .next (s.after s.blk (noopReport [] (.notAnalogPin p)))) ∧
    (p ∈ s.cfg.analogPins → mapFind? (.isInput p) s.replies.bools = some false →
      ∃ t, exec (.sampleAnalog buf p) s = .next t ∧ t.blk = s.blk ∧ t.cfg = s.cfg ∧ t.port = s.port ∧
        t.last = noopReport [.askBool (.isInput p) false] (.notInput p))

/-- HNORM (R80, decision D29): pass-through face-up; face-down 180 − h up to 180, 540 − h above; headings of 0..359 stay in 0..359,
each half maps onto itself, and the reflection undoes itself. -/
def Obligations.HeadingNormReflectsFaceDown : Prop :=
  ∀ (s : State) (h : Int) (facedown : Bool), s.cfg.legal = true →
    ∃ r, exec (.hnorm h facedown) s = .next (s.after s.blk (doneReport [] (.int r))) ∧
      (facedown = false → r = h) ∧
      (facedown = true → h ≤ 180 → r = 180 - h) ∧
      (facedown = true → 180 < h → r = 360 - (h - 180)) ∧
      (0 ≤ h → h ≤ 180 → 0 ≤ r ∧ r ≤ 180) ∧ (181 ≤ h → h ≤ 359 → 181 ≤ r ∧ r ≤ 359) ∧
      (0 ≤ h → h ≤ 359 → exec (.hnorm r facedown) s = .next (s.after s.blk (doneReport [] (.int h))))

/-- TILT (R81; the default P_ROUND is the spec's decision D28, the angles are those of log entry 6): the computed result is the
formula of R81 on the real numbers through P_ROUND, whatever function it is, and under its default truncated toward zero. No state
is written. -/
def Obligations.TiltIsTheFoldedRealFormula : Prop :=
  ∀ (s : State) (θ : RealNum), s.cfg.legal = true →
    exec (.tilt θ) s = .next (s.after s.blk (doneReport [] (.int (roundOf s.cfg (tiltReal (angleReal θ)))))) ∧
    (s.cfg.round = .towardZero → exec (.tilt θ) s =
      .next (s.after s.blk (doneReport [] (.int (truncReal (tiltReal (angleReal θ)))))))

/-- TILT reflects instead of clamping (R81, decision D28): on angles up to 3π/2 either way the result stays in −1000..1000;
beyond π/2 either way it is the truncated reflection, at π/2 exactly 1000 and at −π/2 exactly −1000. -/
def Obligations.TiltStaysInRangeByReflection : Prop :=
  ∀ (s : State) (θ : RealNum) (n : Int), s.cfg.legal = true → s.cfg.round = .towardZero →
    exec (.tilt θ) s = .next (s.after s.blk (doneReport [] (.int n))) →
    (|angleReal θ| ≤ 3 * Real.pi / 2 → -1000 ≤ n ∧ n ≤ 1000) ∧
    (Real.pi / 2 < angleReal θ → n = truncReal (1000 * (2 - 2 * angleReal θ / Real.pi))) ∧
    (angleReal θ < -(Real.pi / 2) → n = truncReal (1000 * (-2 - 2 * angleReal θ / Real.pi))) ∧
    (angleReal θ = Real.pi / 2 → n = 1000) ∧ (angleReal θ = -(Real.pi / 2) → n = -1000)

/-! ## Event encoders -/

/-- PIN_EVENT_IN (R71, R72, decisions D20, D21, D24): the pin of the component, the low 8 bits of the event, the low 32 bits of the
time little-endian and the discriminator are written to the pin-event buffer, and its channel is notified; every other
byte of every buffer is as it was, and an unknown component is a no-op. -/
def Obligations.PinEventWritesItsFrame : Prop :=
  ∀ (s : State) (cid ev : Int) (time : Nat), s.cfg.legal = true → s.Inv →
    (∀ p, (p, cid) ∈ s.cfg.identifierTable →
      ∃ (b : BufId) (ch : Channel) (t : State), exec (.pinEventIn cid ev time) s = .next t ∧
        (s.cfg.eventBuffers = .shared → b = .evt ∧ ch = .event) ∧
        (s.cfg.eventBuffers = .separate → b = .pin ∧ ch = .pinEvent) ∧
        t = s.after { s.blk with nbuf := t.blk.nbuf } t.last ∧
        t.last.trace = [.emit (.notify ch)] ∧ t.last.result = .nothing ∧ t.last.noop = none ∧
        t.nbufByte b 0 = some p ∧ t.nbufByte b 1 = some (BitVec.ofInt 8 ev) ∧
        (∀ k, k < 4 → t.nbufByte b (2 + k) = some (byteOf time k)) ∧
        t.nbufByte b 19 = some s.cfg.dfPinEvent ∧
        (∀ k, 6 ≤ k → k ≠ 19 → t.nbufByte b k = s.nbufByte b k) ∧
        (∀ b', b' ≠ b → ∀ k, t.nbufByte b' k = s.nbufByte b' k)) ∧
    ((∀ p, (p, cid) ∉ s.cfg.identifierTable) →
      exec (.pinEventIn cid ev time) s = .next (s.after s.blk (noopReport [] (.unknownComponent cid))))

/-- BUTTON_EVENT_IN (R71, R73, decisions D21, D23, D24): kind, mapped id (A→5, B→11, else the low 8 bits), mapped event (else the
low 8 bits), time at offset 3, discriminator; every other byte of every buffer is as it was. -/
def Obligations.ButtonEventWritesItsFrame : Prop :=
  ∀ (s : State) (src ev : Int) (time : Nat), s.cfg.legal = true → s.Inv →
    ∃ (b : BufId) (ch : Channel) (t : State), exec (.buttonEventIn src ev time) s = .next t ∧
      (s.cfg.eventBuffers = .shared → b = .evt ∧ ch = .event) ∧
      (s.cfg.eventBuffers = .separate → b = .action ∧ ch = .actionEvent) ∧
      t = s.after { s.blk with nbuf := t.blk.nbuf } t.last ∧
      t.last.trace = [.emit (.notify ch)] ∧ t.last.result = .nothing ∧ t.last.noop = none ∧
      t.nbufByte b 0 = some s.cfg.actButton ∧
      (src = s.cfg.buttonAId → t.nbufByte b 1 = some 5) ∧
      (src = s.cfg.buttonBId → t.nbufByte b 1 = some 11) ∧
      (src ≠ s.cfg.buttonAId → src ≠ s.cfg.buttonBId → t.nbufByte b 1 = some (BitVec.ofInt 8 src)) ∧
      (∀ e, mapsTo s.cfg.buttonEventMap ev e → t.nbufByte b 2 = some e) ∧
      ((∀ e, ¬ mapsTo s.cfg.buttonEventMap ev e) → t.nbufByte b 2 = some (BitVec.ofInt 8 ev)) ∧
      (∀ k, k < 4 → t.nbufByte b (3 + k) = some (byteOf time k)) ∧
      t.nbufByte b 19 = some s.cfg.dfActionEvent ∧
      (∀ k, 7 ≤ k → k ≠ 19 → t.nbufByte b k = s.nbufByte b k) ∧
      (∀ b', b' ≠ b → ∀ k, t.nbufByte b' k = s.nbufByte b' k)

/-- GESTURE_EVENT_IN (R71, R74, decisions D21, D23): kind, mapped code (else the low 8 bits), time at offset 2, discriminator; every
other byte is as it was, byte 6 of an earlier button frame among them (R105). -/
def Obligations.GestureEventWritesItsFrame : Prop :=
  ∀ (s : State) (code : Int) (time : Nat), s.cfg.legal = true → s.Inv →
    ∃ (b : BufId) (ch : Channel) (t : State), exec (.gestureEventIn code time) s = .next t ∧
      (s.cfg.eventBuffers = .shared → b = .evt ∧ ch = .event) ∧
      (s.cfg.eventBuffers = .separate → b = .action ∧ ch = .actionEvent) ∧
      t = s.after { s.blk with nbuf := t.blk.nbuf } t.last ∧
      t.last.trace = [.emit (.notify ch)] ∧ t.last.result = .nothing ∧ t.last.noop = none ∧
      t.nbufByte b 0 = some s.cfg.actGesture ∧
      (∀ g, mapsTo s.cfg.gestureMap code g → t.nbufByte b 1 = some g) ∧
      ((∀ g, ¬ mapsTo s.cfg.gestureMap code g) → t.nbufByte b 1 = some (BitVec.ofInt 8 code)) ∧
      (∀ k, k < 4 → t.nbufByte b (2 + k) = some (byteOf time k)) ∧
      t.nbufByte b 19 = some s.cfg.dfActionEvent ∧
      (∀ k, 6 ≤ k → k ≠ 19 → t.nbufByte b k = s.nbufByte b k) ∧
      (∀ b', b' ≠ b → ∀ k, t.nbufByte b' k = s.nbufByte b' k)

/-- R36: within an event encoder the discriminator byte, offset 19, is written after every payload byte. -/
def Obligations.DiscriminatorIsWrittenLast : Prop :=
  ∀ (i : Instr) (s t : State), exec i s = .next t → t.last.bufWrites ≠ [] →
    ((∃ cid ev time, i = .pinEventIn cid ev time) ∨ (∃ src ev time, i = .buttonEventIn src ev time) ∨
      (∃ code time, i = .gestureEventIn code time)) ∧
    ∃ payload b df, t.last.bufWrites = payload ++ [(b, 19, df)] ∧ payload ≠ [] ∧
      ∀ w ∈ payload, w.1 = b ∧ w.2.1 < 19

/-- A notification buffer keeps every byte that no write of the operation names (R37; but for RESET, R102), and a telemetry operation
returns the caller's buffer with only its own offsets changed: bytes from 6, 18 and 2 on stay, byte 19 among them, since no
telemetry operation writes a discriminator (the spec's decision D25, log entry 16; R25, R32). -/
def Obligations.UnnamedBufferBytesAreKept : Prop :=
  (∀ (i : Instr) (s t : State), exec i s = .next t → i ≠ .reset → ∀ (b : BufId) (k : Nat),
    (∀ w ∈ t.last.bufWrites, ¬ (w.1 = b ∧ w.2.1 = k)) → t.nbufByte b k = s.nbufByte b k) ∧
  (∀ (s t : State) (buf b : List Byte) (p : Pin), t.last.result = .buffer b → ∀ k,
    (exec (.sampleEnv buf) s = .next t → 6 ≤ k → b[k]? = buf[k]?) ∧
    (exec (.sampleOrient buf) s = .next t → 18 ≤ k → b[k]? = buf[k]?) ∧
    (exec (.sampleAnalog buf p) s = .next t → 2 ≤ k → b[k]? = buf[k]?))

/-! ## Reset and the whole machine -/

/-- RESET (R102, decisions D34, D37): every field of the state has its reset value, nothing is emitted, configuration and ports
are as they were. -/
def Obligations.ResetRestoresEveryField : Prop :=
  ∀ s : State, s.cfg.legal = true →
    ∃ t, exec .reset s = .next t ∧ t = s.after t.blk (doneReport [] .nothing) ∧ t.Inv ∧
      (∀ p, t.pullOf p = s.cfg.pullReset) ∧
      (∀ r c : Fin 5, t.blk.grid[r][c] = 0) ∧ (∀ k : Fin 4, t.blk.sreg[k] = 0) ∧
      (∀ p, ∀ x ∈ t.aringOf p, x = 0) ∧ (∀ x ∈ t.blk.lring, x = 0) ∧ t.blk.lidx = 0 ∧
      (∀ p, t.subOf p = { en := false, kind := .edge }) ∧ subscriptionCount t = 0 ∧
      (∀ b k x, t.nbufByte b k = some x → x = 0)

/-- The reset state of every legal configuration has the invariant (R102, R103). -/
def Obligations.InvariantHoldsAtReset : Prop :=
  ∀ c : Cfg, c.legal = true → (State.resetWith c).Inv

/-- Every step keeps the shape R14 to R20 give the block's state: domains of the maps, lengths of rings and buffers, range of the
light index. -/
def Obligations.EveryStepKeepsTheInvariant : Prop :=
  ∀ s t : State, s.Inv → step s = .next t → t.Inv

/-- No operation writes the configuration (R5, R13) or touches the operation port; a step takes at most the first operation from
it. -/
def Obligations.ConfigurationIsNeverWritten : Prop :=
  (∀ (i : Instr) (s t : State), exec i s = .next t → t.cfg = s.cfg ∧ t.port = s.port) ∧
  (∀ s t : State, step s = .next t → t.cfg = s.cfg ∧ t.port = s.port.tail)

/-- Every input inside the contract completes, and exactly the inputs outside it are refused (R91, R103, decisions D6, D26, D42):
under a legal configuration a well-formed operation always answers a next state. -/
def Obligations.ExactlyContractInputsComplete : Prop :=
  ∀ (i : Instr) (s : State),
    (s.cfg.legal = true → i.wellFormed = true → ∃ t, exec i s = .next t) ∧
    (s.cfg.legal = false → exec i s = .refused .illegalConfiguration) ∧
    (s.cfg.legal = true →
      (∀ f, i = .command f → 20 < f.length → exec i s = .refused .frameTooLong) ∧
      (∀ buf, i = .sampleEnv buf → buf.length < 6 → exec i s = .refused .bufferTooShort) ∧
      (∀ buf, i = .sampleOrient buf → buf.length < 18 → exec i s = .refused .bufferTooShort) ∧
      (∀ buf p, i = .sampleAnalog buf p → buf.length < 2 → exec i s = .refused .bufferTooShort) ∧
      (i = .median [] → exec i s = .refused .emptyInput) ∧
      (∀ v, i = .median v → (∃ x ∈ v, x < 0) → exec i s = .refused .negativeSample))

/-- A no-op changes no state, emits no request, returns nothing and writes no buffer (R9, R26): its trace holds only
questions. -/
def Obligations.NoopsHaveNoEffect : Prop :=
  ∀ (i : Instr) (s t : State), exec i s = .next t → t.last.noop ≠ none →
    t.blk = s.blk ∧ t.last.result = .nothing ∧ t.last.bufWrites = [] ∧
    ∀ x ∈ t.last.trace, isRequest x = false

/-- Each field of the block's state has only the writers R14 to R20 name (and RESET): whatever operation runs, a field that
changed was changed by one of them. -/
def Obligations.EachFieldHasItsOwnWriters : Prop :=
  ∀ (i j : Instr) (s t : State), exec i s = .next t → effective s.cfg i = some j → j ≠ .reset →
    (t.blk.pull ≠ s.blk.pull → ∃ p m, j = .pinSetPull p m) ∧
    (t.blk.grid ≠ s.blk.grid → (∃ px, j = .displayPixels0 px) ∨ ∃ px, j = .displayPixels1 px) ∧
    (t.blk.sreg ≠ s.blk.sreg → (∃ k v, j = .sharedData k v) ∨ ∃ k v, j = .sharedSet k v) ∧
    (t.blk.aring ≠ s.blk.aring → ∃ b p, j = .sampleAnalog b p) ∧
    (t.blk.lring ≠ s.blk.lring ∨ t.blk.lidx ≠ s.blk.lidx → ∃ b, j = .sampleEnv b) ∧
    (t.blk.sub ≠ s.blk.sub → ∃ p e, j = .pinSetEvent p e) ∧
    (t.blk.nbuf ≠ s.blk.nbuf → (∃ c e n, j = .pinEventIn c e n) ∨ (∃ c e n, j = .buttonEventIn c e n) ∨
      ∃ c n, j = .gestureEventIn c n)

/-- Only DISPLAY.PIXELS_1 emits a flush, and what it flushes is the whole grid as it then stands (R56, decision D12). -/
def Obligations.OnlyPixels1Flushes : Prop :=
  ∀ (i : Instr) (s t : State) (g : Grid), exec i s = .next t → Interaction.emit (.flush g) ∈ t.last.trace →
    (∃ px, effective s.cfg i = some (.displayPixels1 px)) ∧ g = t.blk.grid

/-- Only pin, button and gesture events notify; only SET_EVENT subscribes or enables detection; the pull of a pin is requested
only by SET_PULL and SAMPLE_ANALOG (the "emitted by" column of R23). -/
def Obligations.RequestsHaveTheirOwnEmitters : Prop :=
  ∀ (i j : Instr) (s t : State) (r : Request), exec i s = .next t → effective s.cfg i = some j →
    Interaction.emit r ∈ t.last.trace →
    (∀ ch, r = .notify ch → (∃ c e n, j = .pinEventIn c e n) ∨ (∃ c e n, j = .buttonEventIn c e n) ∨
      ∃ c n, j = .gestureEventIn c n) ∧
    ((∃ c h d, r = .subscribe c h d) ∨ (∃ c h, r = .unsubscribe c h) ∨ (∃ p k, r = .enableEdgeDetection p k) →
      ∃ p e, j = .pinSetEvent p e) ∧
    (∀ p m, r = .setPull p m → (∃ e, j = .pinSetPull p e) ∨ ∃ b, j = .sampleAnalog b p)

/-- Only the three telemetry operations ask (R22): every other operation leaves the host's answers and the count of queries as
they were and has no question in its trace. -/
def Obligations.OnlyTelemetryAsks : Prop :=
  ∀ (i : Instr) (s t : State), exec i s = .next t → (∀ b, i ≠ .sampleEnv b) → (∀ b, i ≠ .sampleOrient b) →
    (∀ b p, i ≠ .sampleAnalog b p) →
    t.replies = s.replies ∧ t.draws = s.draws ∧ ∀ x ∈ t.last.trace, isRequest x = true

/-- An answer the host has lined up for a query is the answer the block gets, once, and the answers to other queries stay (the
model's query port, log entry 3; R22): for each of the five types of answer, every query and an answer at any place of the list.
The whole state after a question is given, also where no answer is lined up: there the answer is the free one. -/
def Obligations.LinedUpAnswersAreUsedOnce : Prop :=
  AskRule (fun q s => s.askBool q) (fun s => s.replies.bools)
    (fun s l => { s with replies := { s.replies with bools := l } }) Config.freeBool .askBool ∧
  AskRule (fun q s => s.askInt q) (fun s => s.replies.ints)
    (fun s l => { s with replies := { s.replies with ints := l } }) Config.freeInt .askInt ∧
  AskRule (fun q s => s.askAnalog q) (fun s => s.replies.analogs)
    (fun s l => { s with replies := { s.replies with analogs := l } }) Config.freeAnalog .askAnalog ∧
  AskRule (fun q s => s.askLight q) (fun s => s.replies.lights)
    (fun s l => { s with replies := { s.replies with lights := l } }) Config.freeLight .askLight ∧
  AskRule (fun q s => s.askReal q) (fun s => s.replies.reals)
    (fun s l => { s with replies := { s.replies with reals := l } }) Config.freeReal .askReal

/-- The display side of R33 (decision D13): the flush of DISPLAY.PIXELS_1 stands for exactly 25 `setPixel` calls (R60, decision
D14), no two alike, one for each cell (row r, column c) of the grid as it then stands: `setPixel(x = c, y = r, brightness)`, the
brightness unchanged. An operation that emits no flush sets no pixel. -/
def Obligations.FlushSetsEveryCellAtColumnAndRow : Prop :=
  (∀ (s : State) (px : Vector Byte 10), s.cfg.legal = true → ∃ t, exec (.displayPixels1 px) s = .next t ∧
    t.pixelsSet.length = 25 ∧ t.pixelsSet.Nodup ∧
    ∀ (x y : Fin 5) (b : Byte), { x := x, y := y, brightness := b } ∈ t.pixelsSet ↔
      b = if h : 3 ≤ y.val then px[5 * (y.val - 3) + x.val] else s.blk.grid[y][x]) ∧
  (∀ (i : Instr) (s t : State), exec i s = .next t → (∀ g, Interaction.emit (.flush g) ∉ t.last.trace) →
    t.pixelsSet = [])
end

