-- ==== Sys2Proof/Laws/Decode.lean ====
section
/-! SUPPORT. The bit fields of a frame, and what the decoder can answer. -/

namespace Sys2Proof

@[simp] theorem classOf_header (c : BitVec 3) (u : BitVec 5) : classOf (header c u) = c := by
  revert c u; decide

@[simp] theorem subOf_header (c : BitVec 3) (u : BitVec 5) : subOf (header c u) = u := by
  revert c u; decide

@[simp] theorem high_append_low (w : Word16) : (highByte w ++ lowByte w : Word16) = w := by
  apply BitVec.eq_of_toNat_eq
  have := w.isLt
  simp only [highByte, lowByte, BitVec.toNat_append, BitVec.extractLsb'_toNat, Nat.shiftRight_zero]
  rw [← Nat.shiftLeft_add_eq_or_of_lt (Nat.mod_lt _ (by norm_num)), Nat.shiftLeft_eq, Nat.shiftRight_eq_div_pow]
  omega

/-- `u16le` is the byte plus 256 times the next (R9). -/
theorem u16leAt_toNat (f : List Byte) (i : Nat) :
    (u16leAt f i).toNat = (u8At f i).toNat + 256 * (u8At f (i + 1)).toNat := by
  have := (u8At f i).isLt
  simp only [u16leAt, BitVec.toNat_append]
  rw [← Nat.shiftLeft_add_eq_or_of_lt this, Nat.shiftLeft_eq]
  omega

/-- The decoder yields wire forms only. -/
theorem operandsOf_isForm (k : FormKind) (f : List Byte) : (operandsOf k f).isForm = true := by
  cases k <;> rfl

/-- What the decoder answers, said once: a frame that decodes to a form is not empty, is at most P_FRAME_MAX long, has the
minimum length of the form its header selects, and gives that form's operands. -/
theorem decodeFrame_form {c : Cfg} {f : List Byte} {i : Instr} (h : decodeFrame c f = .form i) :
    ∃ x rest k, f = x :: rest ∧ f.length ≤ c.frameMax ∧ selectForm c (classOf x) (subOf x) = .ok k ∧
      minLength k ≤ f.length ∧ i = operandsOf k f := by
  unfold decodeFrame at h
  split at h
  · cases h
  · rename_i hl
    cases f with
    | nil => cases h
    | cons x rest =>
      simp only at h
      split at h
      · cases h
      · rename_i k hk
        split at h
        · cases h
        · rename_i hm
          cases h
          exact ⟨x, rest, k, rfl, by omega, hk, by omega, rfl⟩

theorem decodeFrame_isForm {c : Cfg} {f : List Byte} {i : Instr} (h : decodeFrame c f = .form i) : i.isForm = true := by
  obtain ⟨x, rest, k, -, -, -, -, rfl⟩ := decodeFrame_form h
  exact operandsOf_isForm k f

end Sys2Proof
end

