-- ==== Sys2Proof/Laws/State.lean ====
section
/-! SUPPORT. One lemma per field per update of the state, each true by rfl, so that no later proof unfolds a record update. -/

namespace Sys2Proof.Machine

variable (s : State)

@[simp] theorem State.log_cfg (x : Interaction) : (s.log x).cfg = s.cfg := rfl
@[simp] theorem State.log_blk (x : Interaction) : (s.log x).blk = s.blk := rfl
@[simp] theorem State.log_port (x : Interaction) : (s.log x).port = s.port := rfl
@[simp] theorem State.log_replies (x : Interaction) : (s.log x).replies = s.replies := rfl
@[simp] theorem State.log_draws (x : Interaction) : (s.log x).draws = s.draws := rfl
@[simp] theorem State.log_last (x : Interaction) : (s.log x).last = { s.last with trace := s.last.trace ++ [x] } := rfl

@[simp] theorem State.emit_cfg (r : Request) : (s.emit r).cfg = s.cfg := rfl
@[simp] theorem State.emit_blk (r : Request) : (s.emit r).blk = s.blk := rfl
@[simp] theorem State.emit_port (r : Request) : (s.emit r).port = s.port := rfl
@[simp] theorem State.emit_replies (r : Request) : (s.emit r).replies = s.replies := rfl
@[simp] theorem State.emit_draws (r : Request) : (s.emit r).draws = s.draws := rfl
@[simp] theorem State.emit_last (r : Request) : (s.emit r).last = { s.last with trace := s.last.trace ++ [.emit r] } := rfl

@[simp] theorem State.setPull_cfg (p : Pin) (m : PullMode) : (s.setPull p m).cfg = s.cfg := rfl
@[simp] theorem State.setPull_blk (p : Pin) (m : PullMode) : (s.setPull p m).blk = { s.blk with pull := mapSet p m s.blk.pull } := rfl
@[simp] theorem State.setPull_port (p : Pin) (m : PullMode) : (s.setPull p m).port = s.port := rfl
@[simp] theorem State.setPull_replies (p : Pin) (m : PullMode) : (s.setPull p m).replies = s.replies := rfl
@[simp] theorem State.setPull_draws (p : Pin) (m : PullMode) : (s.setPull p m).draws = s.draws := rfl
@[simp] theorem State.setPull_last (p : Pin) (m : PullMode) : (s.setPull p m).last = s.last := rfl

@[simp] theorem State.setGrid_cfg (g : Grid) : (s.setGrid g).cfg = s.cfg := rfl
@[simp] theorem State.setGrid_blk (g : Grid) : (s.setGrid g).blk = { s.blk with grid := g } := rfl
@[simp] theorem State.setGrid_port (g : Grid) : (s.setGrid g).port = s.port := rfl
@[simp] theorem State.setGrid_replies (g : Grid) : (s.setGrid g).replies = s.replies := rfl
@[simp] theorem State.setGrid_draws (g : Grid) : (s.setGrid g).draws = s.draws := rfl
@[simp] theorem State.setGrid_last (g : Grid) : (s.setGrid g).last = s.last := rfl

@[simp] theorem State.setSreg_cfg (i : Fin 4) (v : Word16) : (s.setSreg i v).cfg = s.cfg := rfl
@[simp] theorem State.setSreg_blk (i : Fin 4) (v : Word16) : (s.setSreg i v).blk = { s.blk with sreg := s.blk.sreg.set i v } := rfl
@[simp] theorem State.setSreg_port (i : Fin 4) (v : Word16) : (s.setSreg i v).port = s.port := rfl
@[simp] theorem State.setSreg_replies (i : Fin 4) (v : Word16) : (s.setSreg i v).replies = s.replies := rfl
@[simp] theorem State.setSreg_draws (i : Fin 4) (v : Word16) : (s.setSreg i v).draws = s.draws := rfl
@[simp] theorem State.setSreg_last (i : Fin 4) (v : Word16) : (s.setSreg i v).last = s.last := rfl

@[simp] theorem State.setAring_cfg (p : Pin) (r : List Word16) : (s.setAring p r).cfg = s.cfg := rfl
@[simp] theorem State.setAring_blk (p : Pin) (r : List Word16) : (s.setAring p r).blk = { s.blk with aring := mapSet p r s.blk.aring } := rfl
@[simp] theorem State.setAring_port (p : Pin) (r : List Word16) : (s.setAring p r).port = s.port := rfl
@[simp] theorem State.setAring_replies (p : Pin) (r : List Word16) : (s.setAring p r).replies = s.replies := rfl
@[simp] theorem State.setAring_draws (p : Pin) (r : List Word16) : (s.setAring p r).draws = s.draws := rfl
@[simp] theorem State.setAring_last (p : Pin) (r : List Word16) : (s.setAring p r).last = s.last := rfl

@[simp] theorem State.setLight_cfg (r : List Byte) (k : Nat) : (s.setLight r k).cfg = s.cfg := rfl
@[simp] theorem State.setLight_blk (r : List Byte) (k : Nat) : (s.setLight r k).blk = { s.blk with lring := r, lidx := k } := rfl
@[simp] theorem State.setLight_port (r : List Byte) (k : Nat) : (s.setLight r k).port = s.port := rfl
@[simp] theorem State.setLight_replies (r : List Byte) (k : Nat) : (s.setLight r k).replies = s.replies := rfl
@[simp] theorem State.setLight_draws (r : List Byte) (k : Nat) : (s.setLight r k).draws = s.draws := rfl
@[simp] theorem State.setLight_last (r : List Byte) (k : Nat) : (s.setLight r k).last = s.last := rfl

@[simp] theorem State.setSub_cfg (p : Pin) (e : Subscription) : (s.setSub p e).cfg = s.cfg := rfl
@[simp] theorem State.setSub_blk (p : Pin) (e : Subscription) : (s.setSub p e).blk = { s.blk with sub := mapSet p e s.blk.sub } := rfl
@[simp] theorem State.setSub_port (p : Pin) (e : Subscription) : (s.setSub p e).port = s.port := rfl
@[simp] theorem State.setSub_replies (p : Pin) (e : Subscription) : (s.setSub p e).replies = s.replies := rfl
@[simp] theorem State.setSub_draws (p : Pin) (e : Subscription) : (s.setSub p e).draws = s.draws := rfl
@[simp] theorem State.setSub_last (p : Pin) (e : Subscription) : (s.setSub p e).last = s.last := rfl

@[simp] theorem State.writeNbuf_cfg (b : BufId) (ws : List (Nat × Byte)) : (s.writeNbuf b ws).cfg = s.cfg := rfl
@[simp] theorem State.writeNbuf_blk (b : BufId) (ws : List (Nat × Byte)) : (s.writeNbuf b ws).blk = { s.blk with nbuf := mapSet b (writeBytes (s.nbufOf b) ws) s.blk.nbuf } := rfl
@[simp] theorem State.writeNbuf_port (b : BufId) (ws : List (Nat × Byte)) : (s.writeNbuf b ws).port = s.port := rfl
@[simp] theorem State.writeNbuf_replies (b : BufId) (ws : List (Nat × Byte)) : (s.writeNbuf b ws).replies = s.replies := rfl
@[simp] theorem State.writeNbuf_draws (b : BufId) (ws : List (Nat × Byte)) : (s.writeNbuf b ws).draws = s.draws := rfl
@[simp] theorem State.writeNbuf_last (b : BufId) (ws : List (Nat × Byte)) : (s.writeNbuf b ws).last = { s.last with bufWrites := s.last.bufWrites ++ ws.map fun w => (b, w.1, w.2) } := rfl

@[simp] theorem State.begin_cfg : s.begin.cfg = s.cfg := rfl
@[simp] theorem State.begin_blk : s.begin.blk = s.blk := rfl
@[simp] theorem State.begin_port : s.begin.port = s.port := rfl
@[simp] theorem State.begin_replies : s.begin.replies = s.replies := rfl
@[simp] theorem State.begin_draws : s.begin.draws = s.draws := rfl
@[simp] theorem State.begin_last : s.begin.last = Report.empty := rfl

@[simp] theorem State.deliverFrame_cfg (f : List Byte) : (s.deliverFrame f).cfg = s.cfg := rfl
@[simp] theorem State.deliverFrame_blk (f : List Byte) : (s.deliverFrame f).blk = s.blk := rfl
@[simp] theorem State.deliverFrame_port (f : List Byte) : (s.deliverFrame f).port = .command f :: s.port := rfl
@[simp] theorem State.deliverFrame_replies (f : List Byte) : (s.deliverFrame f).replies = s.replies := rfl
@[simp] theorem State.deliverFrame_draws (f : List Byte) : (s.deliverFrame f).draws = s.draws := rfl
@[simp] theorem State.deliverFrame_last (f : List Byte) : (s.deliverFrame f).last = s.last := rfl

@[simp] theorem State.askBool_cfg (q : BoolQuery) : (s.askBool q).2.cfg = s.cfg := rfl
@[simp] theorem State.askBool_blk (q : BoolQuery) : (s.askBool q).2.blk = s.blk := rfl
@[simp] theorem State.askBool_port (q : BoolQuery) : (s.askBool q).2.port = s.port := rfl
@[simp] theorem State.askBool_draws (q : BoolQuery) : (s.askBool q).2.draws = s.draws + 1 := rfl
@[simp] theorem State.askBool_replies (q : BoolQuery) : (s.askBool q).2.replies =
    { s.replies with bools := dropReply q s.replies.bools } := rfl
@[simp] theorem State.askBool_last (q : BoolQuery) : (s.askBool q).2.last =
    { s.last with trace := s.last.trace ++ [.askBool q (s.askBool q).1] } := rfl

@[simp] theorem State.askInt_cfg (q : IntQuery) : (s.askInt q).2.cfg = s.cfg := rfl
@[simp] theorem State.askInt_blk (q : IntQuery) : (s.askInt q).2.blk = s.blk := rfl
@[simp] theorem State.askInt_port (q : IntQuery) : (s.askInt q).2.port = s.port := rfl
@[simp] theorem State.askInt_draws (q : IntQuery) : (s.askInt q).2.draws = s.draws + 1 := rfl
@[simp] theorem State.askInt_replies (q : IntQuery) : (s.askInt q).2.replies =
    { s.replies with ints := dropReply q s.replies.ints } := rfl
@[simp] theorem State.askInt_last (q : IntQuery) : (s.askInt q).2.last =
    { s.last with trace := s.last.trace ++ [.askInt q (s.askInt q).1] } := rfl

@[simp] theorem State.askAnalog_cfg (q : AnalogQuery) : (s.askAnalog q).2.cfg = s.cfg := rfl
@[simp] theorem State.askAnalog_blk (q : AnalogQuery) : (s.askAnalog q).2.blk = s.blk := rfl
@[simp] theorem State.askAnalog_port (q : AnalogQuery) : (s.askAnalog q).2.port = s.port := rfl
@[simp] theorem State.askAnalog_draws (q : AnalogQuery) : (s.askAnalog q).2.draws = s.draws + 1 := rfl
@[simp] theorem State.askAnalog_replies (q : AnalogQuery) : (s.askAnalog q).2.replies =
    { s.replies with analogs := dropReply q s.replies.analogs } := rfl
@[simp] theorem State.askAnalog_last (q : AnalogQuery) : (s.askAnalog q).2.last =
    { s.last with trace := s.last.trace ++ [.askAnalog q (s.askAnalog q).1] } := rfl

@[simp] theorem State.askLight_cfg (q : LightQuery) : (s.askLight q).2.cfg = s.cfg := rfl
@[simp] theorem State.askLight_blk (q : LightQuery) : (s.askLight q).2.blk = s.blk := rfl
@[simp] theorem State.askLight_port (q : LightQuery) : (s.askLight q).2.port = s.port := rfl
@[simp] theorem State.askLight_draws (q : LightQuery) : (s.askLight q).2.draws = s.draws + 1 := rfl
@[simp] theorem State.askLight_replies (q : LightQuery) : (s.askLight q).2.replies =
    { s.replies with lights := dropReply q s.replies.lights } := rfl
@[simp] theorem State.askLight_last (q : LightQuery) : (s.askLight q).2.last =
    { s.last with trace := s.last.trace ++ [.askLight q (s.askLight q).1] } := rfl

@[simp] theorem State.askReal_cfg (q : RealQuery) : (s.askReal q).2.cfg = s.cfg := rfl
@[simp] theorem State.askReal_blk (q : RealQuery) : (s.askReal q).2.blk = s.blk := rfl
@[simp] theorem State.askReal_port (q : RealQuery) : (s.askReal q).2.port = s.port := rfl
@[simp] theorem State.askReal_draws (q : RealQuery) : (s.askReal q).2.draws = s.draws + 1 := rfl
@[simp] theorem State.askReal_replies (q : RealQuery) : (s.askReal q).2.replies =
    { s.replies with reals := dropReply q s.replies.reals } := rfl
@[simp] theorem State.askReal_last (q : RealQuery) : (s.askReal q).2.last =
    { s.last with trace := s.last.trace ++ [.askReal q (s.askReal q).1] } := rfl

@[simp] theorem State.resetWith_cfg (c : Cfg) : (State.resetWith c).cfg = c := rfl
@[simp] theorem State.resetWith_blk (c : Cfg) : (State.resetWith c).blk = resetBlock c := rfl
@[simp] theorem State.resetWith_port (c : Cfg) : (State.resetWith c).port = [] := rfl

@[simp] theorem State.begin_begin : s.begin.begin = s.begin := rfl

end Sys2Proof.Machine
end

