-- ==== Sys2Proof/Laws/Ops.lean ====
section
/-! SUPPORT. What each shared operation can do, said once: the finite maps, the byte writes, the queries and the frame of an
operation. -/

namespace Sys2Proof.Machine

section Maps

variable {κ α : Type} [DecidableEq κ]

theorem mapGet_mapSet_self (k : κ) (d v : α) (l : List (κ × α)) : mapGet k d (mapSet k v l) = v := by
  induction l with
  | nil => simp [mapSet, mapGet]
  | cons e t ih =>
    obtain ⟨k', v'⟩ := e
    by_cases h : k' = k <;> simp [mapSet, mapGet, h, ih]

theorem mapGet_mapSet_other {k k' : κ} (h : k' ≠ k) (d v : α) (l : List (κ × α)) :
    mapGet k' d (mapSet k v l) = mapGet k' d l := by
  induction l with
  | nil => simp [mapSet, mapGet, h.symm]
  | cons e t ih =>
    obtain ⟨k₁, v₁⟩ := e
    by_cases h₁ : k₁ = k
    · subst h₁; simp [mapSet, mapGet, h.symm]
    · simp only [mapSet, h₁, if_false, mapGet, ih]

/-- A write to a key the map lists keeps the list of keys. -/
theorem keys_mapSet {k : κ} (v : α) {l : List (κ × α)} (h : k ∈ l.map Prod.fst) :
    (mapSet k v l).map Prod.fst = l.map Prod.fst := by
  induction l with
  | nil => simp at h
  | cons e t ih =>
    obtain ⟨k', v'⟩ := e
    by_cases h₁ : k' = k
    · simp [mapSet, h₁]
    · have : k ∈ t.map Prod.fst := by simpa [Ne.symm h₁] using h
      simp [mapSet, h₁, ih this]

/-- Every pair of the written map is an old pair or the written one. -/
theorem mem_mapSet {k : κ} {v : α} {l : List (κ × α)} {e : κ × α} (h : e ∈ mapSet k v l) : e ∈ l ∨ e = (k, v) := by
  induction l with
  | nil => simpa [mapSet] using h
  | cons e' t ih =>
    obtain ⟨k', v'⟩ := e'
    by_cases h₁ : k' = k
    · subst h₁
      simp only [mapSet, if_true, List.mem_cons] at h
      rcases h with rfl | h
      · exact .inr rfl
      · exact .inl (by simp [h])
    · simp only [mapSet, h₁, if_false, List.mem_cons] at h
      rcases h with rfl | h
      · exact .inl (by simp)
      · rcases ih h with h | h
        · exact .inl (by simp [h])
        · exact .inr h

/-- The value a map gives at a key it lists is listed with that key. -/
theorem mapGet_mem {k : κ} (d : α) {l : List (κ × α)} (h : k ∈ l.map Prod.fst) : (k, mapGet k d l) ∈ l := by
  induction l with
  | nil => simp at h
  | cons e t ih =>
    obtain ⟨k', v'⟩ := e
    by_cases h₁ : k' = k
    · simp [mapGet, h₁]
    · have : k ∈ t.map Prod.fst := by simpa [Ne.symm h₁] using h
      simp [mapGet, h₁, ih this]

theorem mapFind?_mem {k : κ} {v : α} {l : List (κ × α)} (h : mapFind? k l = some v) : (k, v) ∈ l := by
  induction l with
  | nil => simp [mapFind?] at h
  | cons e t ih =>
    obtain ⟨k', v'⟩ := e
    by_cases h₁ : k' = k
    · simp_all [mapFind?]
    · simp only [mapFind?, h₁, if_false] at h
      simp [ih h]

theorem mapFind?_isSome {k : κ} {l : List (κ × α)} : (mapFind? k l).isSome ↔ k ∈ l.map Prod.fst := by
  induction l with
  | nil => simp [mapFind?]
  | cons e t ih =>
    obtain ⟨k', v'⟩ := e
    by_cases h₁ : k' = k
    · simp [mapFind?, h₁]
    · simp [mapFind?, h₁, ih, Ne.symm h₁]

theorem mapFind?_eq_none {k : κ} {l : List (κ × α)} : mapFind? k l = none ↔ k ∉ l.map Prod.fst := by
  rw [← mapFind?_isSome, Bool.not_eq_true, Option.isSome_eq_false_iff, Option.isNone_iff_eq_none]

/-- In a partial map, the value found at a key is the one listed with it. -/
theorem mapFind?_of_mem {k : κ} {v : α} {l : List (κ × α)} (hn : (l.map Prod.fst).Nodup) (h : (k, v) ∈ l) :
    mapFind? k l = some v := by
  induction l with
  | nil => simp at h
  | cons e t ih =>
    obtain ⟨k', v'⟩ := e
    simp only [List.map_cons, List.nodup_cons] at hn
    rcases List.mem_cons.mp h with h | h
    · cases h; simp [mapFind?]
    · have : k' ≠ k := fun e => hn.1 (e ▸ List.mem_map_of_mem (f := Prod.fst) h)
      simp [mapFind?, this, ih hn.2 h]

/-- Taking the answer to one query leaves the answers to the others. -/
theorem mapFind?_dropReply_other {q k : κ} (h : k ≠ q) (l : List (κ × α)) :
    mapFind? k (dropReply q l) = mapFind? k l := by
  induction l with
  | nil => rfl
  | cons e t ih =>
    obtain ⟨k', v'⟩ := e
    by_cases h₁ : k' = q
    · subst h₁; simp [dropReply, mapFind?, h.symm]
    · simp only [dropReply, h₁, if_false, mapFind?, ih]

/-- Taking an answer removes the first one lined up for the query, and it alone. -/
theorem dropReply_append {q : κ} {l₁ : List (κ × α)} (h : q ∉ l₁.map Prod.fst) (v : α) (l₂ : List (κ × α)) :
    dropReply q (l₁ ++ (q, v) :: l₂) = l₁ ++ l₂ := by
  induction l₁ with
  | nil => simp [dropReply]
  | cons e t ih =>
    obtain ⟨k, w⟩ := e
    simp only [List.map_cons, List.mem_cons, not_or] at h
    simp [dropReply, Ne.symm h.1, ih h.2]

theorem mapFind?_append {q : κ} {l₁ : List (κ × α)} (h : q ∉ l₁.map Prod.fst) (v : α) (l₂ : List (κ × α)) :
    mapFind? q (l₁ ++ (q, v) :: l₂) = some v := by
  induction l₁ with
  | nil => simp [mapFind?]
  | cons e t ih =>
    obtain ⟨k, w⟩ := e
    simp only [List.map_cons, List.mem_cons, not_or] at h
    simp [mapFind?, Ne.symm h.1, ih h.2]

/-- With no answer lined up for the query the list stays. -/
theorem dropReply_of_not_mem {q : κ} {l : List (κ × α)} (h : q ∉ l.map Prod.fst) : dropReply q l = l := by
  induction l with
  | nil => rfl
  | cons e t ih =>
    obtain ⟨k, w⟩ := e
    simp only [List.map_cons, List.mem_cons, not_or] at h
    simp [dropReply, Ne.symm h.1, ih h.2]

end Maps

section Bytes

@[simp] theorem writeBytes_nil (b : List Byte) : writeBytes b [] = b := rfl

@[simp] theorem writeBytes_cons (b : List Byte) (w : Nat × Byte) (ws : List (Nat × Byte)) :
    writeBytes b (w :: ws) = writeBytes (b.set w.1 w.2) ws := rfl

@[simp] theorem length_writeBytes (b : List Byte) (ws : List (Nat × Byte)) : (writeBytes b ws).length = b.length := by
  induction ws generalizing b with
  | nil => rfl
  | cons w ws ih => simp [ih]

theorem writeBytes_append (b : List Byte) (ws vs : List (Nat × Byte)) :
    writeBytes b (ws ++ vs) = writeBytes (writeBytes b ws) vs := by
  induction ws generalizing b with
  | nil => rfl
  | cons w ws ih => simp [ih]

/-- A byte no write names is unchanged (R37). -/
theorem writeBytes_other {ws : List (Nat × Byte)} {k : Nat} (h : ∀ w ∈ ws, w.1 ≠ k) (b : List Byte) :
    (writeBytes b ws)[k]? = b[k]? := by
  induction ws generalizing b with
  | nil => rfl
  | cons w ws ih =>
    rw [writeBytes_cons, ih fun w hw => h w (List.mem_cons_of_mem _ hw)]
    exact List.getElem?_set_ne (h w List.mem_cons_self)

/-- A byte named by one write alone holds what that write gave it. -/
theorem writeBytes_of_mem {ws : List (Nat × Byte)} (hn : (ws.map Prod.fst).Nodup) {k : Nat} {v : Byte}
    (h : (k, v) ∈ ws) (b : List Byte) (hk : k < b.length) : (writeBytes b ws)[k]? = some v := by
  induction ws generalizing b with
  | nil => simp at h
  | cons w ws ih =>
    simp only [List.map_cons, List.nodup_cons] at hn
    rcases List.mem_cons.mp h with h | h
    · subst h
      rw [writeBytes_cons, writeBytes_other]
      · simp [hk]
      · intro w hw e
        have := List.mem_map_of_mem (f := Prod.fst) hw
        rw [e] at this
        exact hn.1 this
    · rw [writeBytes_cons]
      exact ih hn.2 h _ (by simpa using hk)

end Bytes

section Frame

variable {s t : State} {body : State → Out}

/-- The constraints of R5, one group at a time. -/
theorem legal_iff {c : Cfg} : c.legal = true ↔
    c.HeaderCodesLegal ∧ c.PinsLegal ∧ c.FieldCodesLegal ∧ c.CountsLegal := by
  simp only [Cfg.legal, decide_eq_true_eq]

theorem transact_of_legal (h : s.cfg.legal) : s.transact body = body s.begin := by simp [State.transact, h]

theorem transact_of_illegal (h : ¬ s.cfg.legal) : s.transact body = .refused .illegalConfiguration := by
  simp [State.transact, h]

/-- An operation answers a next state exactly when the configuration is legal and its body does. -/
theorem transact_next : s.transact body = .next t ↔ s.cfg.legal ∧ body s.begin = .next t := by
  by_cases h : s.cfg.legal
  · simp [transact_of_legal h, h]
  · simp [transact_of_illegal h, h]

theorem finish_next {r : Result} : s.finish r = .next t ↔ t = { s with last := { s.last with result := r } } := by
  simp [State.finish, eq_comm]

theorem noop_next {r : NoopReason} : s.noop r = .next t ↔ t = { s with last := { s.last with noop := some r } } := by
  simp [State.noop, eq_comm]

end Frame

section Queries

variable {s : State}

/-- A query gets the first answer the host has lined up for it. -/
theorem askBool_of_reply {q : BoolQuery} {a : Bool} (h : mapFind? q s.replies.bools = some a) : (s.askBool q).1 = a := by
  simp [State.askBool, h]

theorem askInt_of_reply {q : IntQuery} {a : Int} (h : mapFind? q s.replies.ints = some a) : (s.askInt q).1 = a := by
  simp [State.askInt, h]

theorem askAnalog_of_reply {q : AnalogQuery} {a : Word16} (h : mapFind? q s.replies.analogs = some a) :
    (s.askAnalog q).1 = a := by
  simp [State.askAnalog, h]

theorem askLight_of_reply {q : LightQuery} {a : Byte} (h : mapFind? q s.replies.lights = some a) :
    (s.askLight q).1 = a := by
  simp [State.askLight, h]

theorem askReal_of_reply {q : RealQuery} {a : RealNum} (h : mapFind? q s.replies.reals = some a) :
    (s.askReal q).1 = a := by
  simp [State.askReal, h]

end Queries

end Sys2Proof.Machine
end

