-- ==== Sys2Proof/Laws/Shared.lean ====
section
/-! SUPPORT. Facts the proofs share: what a legal configuration gives the decoder and the maps, and the checks of the forms run in
the state an operation begins in. -/

namespace Sys2Proof.Machine

section Configuration

variable {c : Cfg}

theorem legal_frameMax (h : c.legal = true) : c.frameMax = 20 := (legal_iff.mp h).2.2.2.1

theorem legal_counts (h : c.legal = true) : 20 ≤ c.notifyLen ∧ 1 ≤ c.nAnalog ∧ 1 ≤ c.nLight := (legal_iff.mp h).2.2.2.2

/-- Every header of R43 to R46 selects its form: class and subcommand codes are distinct. -/
theorem selectForm_of_legal (h : c.legal = true) :
    selectForm c c.clsDisplay c.subText = .ok .text ∧ selectForm c c.clsDisplay c.subPixels0 = .ok .pixels0 ∧
    selectForm c c.clsDisplay c.subPixels1 = .ok .pixels1 ∧ selectForm c c.clsPin c.subSetPull = .ok .setPull ∧
    selectForm c c.clsPin c.subSetTouch = .ok .setTouch ∧ selectForm c c.clsPin c.subSetOutput = .ok .setOutput ∧
    selectForm c c.clsPin c.subSetPwm = .ok .setPwm ∧ selectForm c c.clsPin c.subSetServo = .ok .setServo ∧
    selectForm c c.clsPin c.subSetEvent = .ok .setEvent ∧ ∀ u, selectForm c c.clsShared u = .ok .sharedData := by
  obtain ⟨⟨h1, h2, h3⟩, -⟩ := legal_iff.mp h
  simp only [List.nodup_cons, List.mem_cons, List.not_mem_nil, or_false, not_or, List.nodup_nil, and_true,
    not_false_eq_true] at h1 h2 h3
  simp only [selectForm, selectDisplay, selectPin]
  grind

/-- A frame of a selected form, not too short and not too long, decodes to the form's operands. -/
theorem decodeFrame_of_select (h : c.legal = true) {cls : BitVec 3} {sub : BitVec 5} {body : List Byte} {k : FormKind}
    (hk : selectForm c cls sub = .ok k) (h₁ : minLength k ≤ body.length + 1) (h₂ : body.length + 1 ≤ 20) :
    decodeFrame c (header cls sub :: body) = .form (operandsOf k (header cls sub :: body)) := by
  have := legal_frameMax h
  simp only [decodeFrame, List.length_cons, classOf_header, subOf_header, hk]
  rw [if_neg (by omega), if_neg (by omega)]

/-- A frame of a selected form that is too short is a no-op with its length. -/
theorem decodeFrame_of_short (h : c.legal = true) {cls : BitVec 3} {sub : BitVec 5} {body : List Byte} {k : FormKind}
    (hk : selectForm c cls sub = .ok k) (h₁ : body.length + 1 < minLength k) (h₂ : body.length + 1 ≤ 20) :
    decodeFrame c (header cls sub :: body) = .noop (.shortFrame (body.length + 1)) := by
  have := legal_frameMax h
  simp only [decodeFrame, List.length_cons, classOf_header, subOf_header, hk]
  rw [if_neg (by omega), if_pos h₁]

theorem componentOf_of_mem (h : c.legal = true) {p : Pin} {cid : ComponentId} (hm : (p, cid) ∈ c.identifierTable) :
    componentOf c p = some cid :=
  mapFind?_of_mem (legal_iff.mp h).2.1.2.1 hm

theorem pinOfComponent_of_mem (h : c.legal = true) {p : Pin} {cid : ComponentId}
    (hm : (p, cid) ∈ c.identifierTable) : pinOfComponent c cid = some p := by
  refine mapFind?_of_mem ?_ (List.mem_map.mpr ⟨(p, cid), hm, rfl⟩)
  simpa [List.map_map, Function.comp_def] using (legal_iff.mp h).2.1.2.2.2.1

theorem gpioSet_of_legal (h : c.legal = true) {p : Pin} (hp : p ∈ c.gpioSet) : p.toNat < 32 ∧ p ≠ 5 ∧ p ≠ 11 :=
  List.forall_iff_forall_mem.mp (legal_iff.mp h).2.1.2.2.2.2.2.2.2 p hp

/-- Each event-type code asks for its kind: the four codes are distinct. -/
theorem decodeEventType_of_legal (h : c.legal = true) :
    decodeEventType c c.evtNone = some none ∧ decodeEventType c c.evtEdge = some (some .edge) ∧
    decodeEventType c c.evtPulse = some (some .pulse) ∧ decodeEventType c c.evtTouch = some (some .touch) := by
  have := (legal_iff.mp h).2.2.1.2.2.2.1
  simp only [List.nodup_cons, List.mem_cons, List.not_mem_nil, or_false, not_or, List.nodup_nil, and_true,
    not_false_eq_true] at this
  simp only [decodeEventType]
  grind

end Configuration

section Checks

variable {s : State}

/-- The pin check of a form where it passes, in the state the operation begins in. -/
theorem withValidPin_begin {p : Pin} {body : State → Out} (hp : p ∈ s.cfg.validPins) :
    withValidPin p s.begin body = body s.begin := if_pos hp

/-- The pin check of a form where it fails. -/
theorem withValidPin_begin_bad {p : Pin} {body : State → Out} (hp : p ∉ s.cfg.validPins) :
    withValidPin p s.begin body = s.begin.noop (.badPin p) := if_neg hp

theorem sregIndex_of {i : Int} (k : Fin 4) (h : i = k.val) : sregIndex i = some k := by
  have := k.isLt
  simp only [sregIndex]
  rw [dif_pos (by omega)]
  congr 1
  apply Fin.ext
  simp [h]

theorem sregIndex_none {i : Int} (h : i < 0 ∨ 3 < i) : sregIndex i = none := by
  simp only [sregIndex]
  rw [dif_neg (by omega)]

end Checks

end Sys2Proof.Machine
end

