-- ==== Sys2Proof/Laws/Queries.lean ====
section
/-! SUPPORT. What the operations that ask can do, said once: they leave the configuration, the block's state and the port as they
were and append questions to the trace. Also the median, the analog fill and the light push. -/

namespace Sys2Proof.Machine

/-- `t` is `s` after some queries, `xs` in the trace. -/
structure Asked (s t : State) (xs : List Interaction) : Prop where
  cfg : t.cfg = s.cfg
  blk : t.blk = s.blk
  port : t.port = s.port
  last : t.last = { s.last with trace := s.last.trace ++ xs }
  quiet : ∀ x ∈ xs, isRequest x = false

theorem Asked.refl (s : State) : Asked s s [] := ⟨rfl, rfl, rfl, by simp, by simp⟩

theorem Asked.trans {s t u : State} {xs ys : List Interaction} (h₁ : Asked s t xs) (h₂ : Asked t u ys) :
    Asked s u (xs ++ ys) :=
  ⟨h₂.cfg.trans h₁.cfg, h₂.blk.trans h₁.blk, h₂.port.trans h₁.port, by rw [h₂.last, h₁.last]; simp,
    fun x hx => (List.mem_append.mp hx).elim (h₁.quiet x) (h₂.quiet x)⟩

theorem askBool_asked (q : BoolQuery) (s : State) : Asked s (s.askBool q).2 [.askBool q (s.askBool q).1] :=
  ⟨rfl, rfl, rfl, rfl, by simp [isRequest]⟩

theorem askInt_asked (q : IntQuery) (s : State) : Asked s (s.askInt q).2 [.askInt q (s.askInt q).1] :=
  ⟨rfl, rfl, rfl, rfl, by simp [isRequest]⟩

theorem askAnalog_asked (q : AnalogQuery) (s : State) : Asked s (s.askAnalog q).2 [.askAnalog q (s.askAnalog q).1] :=
  ⟨rfl, rfl, rfl, rfl, by simp [isRequest]⟩

theorem askLight_asked (q : LightQuery) (s : State) : Asked s (s.askLight q).2 [.askLight q (s.askLight q).1] :=
  ⟨rfl, rfl, rfl, rfl, by simp [isRequest]⟩

theorem askReal_asked (q : RealQuery) (s : State) : Asked s (s.askReal q).2 [.askReal q (s.askReal q).1] :=
  ⟨rfl, rfl, rfl, rfl, by simp [isRequest]⟩

theorem gpioMask_asked (ps : List Pin) (mask : Nat) (s : State) : ∃ xs, Asked s (gpioMask ps mask s).2 xs := by
  induction ps generalizing mask s with
  | nil => exact ⟨[], Asked.refl s⟩
  | cons p ps ih =>
    have h := (askBool_asked (.isInput p) s).trans (askBool_asked (.isDigital p) _)
    simp only [gpioMask]
    split
    · obtain ⟨xs, hx⟩ := ih (withLevel p _ mask) (State.askInt (.getDigitalValue p) _).2
      exact ⟨_, (h.trans (askInt_asked (.getDigitalValue p) _)).trans hx⟩
    · obtain ⟨xs, hx⟩ := ih mask ((s.askBool (.isInput p)).2.askBool (.isDigital p)).2
      exact ⟨_, h.trans hx⟩

theorem levelMask_asked (qs : List Pin) (mask : Nat) (s : State) : ∃ xs, Asked s (levelMask qs mask s).2 xs := by
  induction qs generalizing mask s with
  | nil => exact ⟨[], Asked.refl s⟩
  | cons q qs ih =>
    obtain ⟨xs, hx⟩ := ih (withLevel q (s.askInt (.getDigitalValue q)).1 mask) (s.askInt (.getDigitalValue q)).2
    exact ⟨_, (askInt_asked (.getDigitalValue q) s).trans hx⟩

/-- DIGITAL_MASK only asks (R77). -/
theorem digitalMask_asked (s : State) : ∃ xs, Asked s (digitalMask s).2 xs := by
  obtain ⟨xs, hx⟩ := gpioMask_asked s.cfg.gpioSet 0 s
  obtain ⟨ys, hy⟩ := levelMask_asked buttonPins (gpioMask s.cfg.gpioSet 0 s).1 (gpioMask s.cfg.gpioSet 0 s).2
  exact ⟨_, hx.trans hy⟩

theorem length_takeSamples (p : Pin) (n : Nat) (s : State) : (takeSamples p n s).1.length = n := by
  induction n generalizing s with
  | zero => rfl
  | succ n ih => simp [takeSamples, ih]

/-- The samples of an analog fill are asked for one by one, in slot order (R84). -/
theorem takeSamples_asked (p : Pin) (n : Nat) (s : State) :
    Asked s (takeSamples p n s).2
      ((takeSamples p n s).1.map fun w => Interaction.askAnalog (.getAnalogValue p) w) := by
  induction n generalizing s with
  | zero => exact Asked.refl s
  | succ n ih => exact (askAnalog_asked (.getAnalogValue p) s).trans (ih _)

/-- The answers to an analog fill do not depend on the block's state. -/
theorem takeSamples_blk (p : Pin) (n : Nat) (s : State) (b : Block) :
    takeSamples p n { s with blk := b } = ((takeSamples p n s).1, { (takeSamples p n s).2 with blk := b }) := by
  induction n generalizing s with
  | zero => rfl
  | succ n ih =>
    have h : State.askAnalog (.getAnalogValue p) { s with blk := b } =
      ((s.askAnalog (.getAnalogValue p)).1, { (s.askAnalog (.getAnalogValue p)).2 with blk := b }) := rfl
    simp only [takeSamples, h]
    rw [ih]

/-- The answers to DIGITAL_MASK do not depend on the block's state. -/
theorem gpioMask_blk (ps : List Pin) (mask : Nat) (s : State) (b : Block) :
    gpioMask ps mask { s with blk := b } = ((gpioMask ps mask s).1, { (gpioMask ps mask s).2 with blk := b }) := by
  induction ps generalizing mask s with
  | nil => rfl
  | cons p ps ih =>
    have h (q : BoolQuery) (s : State) : State.askBool q { s with blk := b } =
      ((s.askBool q).1, { (s.askBool q).2 with blk := b }) := rfl
    have h' (q : IntQuery) (s : State) : State.askInt q { s with blk := b } =
      ((s.askInt q).1, { (s.askInt q).2 with blk := b }) := rfl
    simp only [gpioMask, h, h', ih]
    split <;> rfl

theorem levelMask_blk (qs : List Pin) (mask : Nat) (s : State) (b : Block) :
    levelMask qs mask { s with blk := b } = ((levelMask qs mask s).1, { (levelMask qs mask s).2 with blk := b }) := by
  induction qs generalizing mask s with
  | nil => rfl
  | cons q qs ih =>
    have h (q : IntQuery) (s : State) : State.askInt q { s with blk := b } =
      ((s.askInt q).1, { (s.askInt q).2 with blk := b }) := rfl
    simp only [levelMask, h, ih]

theorem digitalMask_blk (s : State) (b : Block) :
    digitalMask { s with blk := b } = ((digitalMask s).1, { (digitalMask s).2 with blk := b }) := by
  simp only [digitalMask, gpioMask_blk, levelMask_blk]

/-- The median depends on its values only as a multiset (R86). -/
theorem medianOf_perm {v w : List Int} (h : v.Perm w) : medianOf v = medianOf w := by
  have : v.insertionSort (· ≤ ·) = w.insertionSort (· ≤ ·) :=
    ((List.perm_insertionSort _ v).trans (h.trans (List.perm_insertionSort _ w).symm)).eq_of_pairwise'
      (List.pairwise_insertionSort _ v) (List.pairwise_insertionSort _ w)
  simp only [medianOf, this, h.length_eq]

/-- The median of a sorted list is read off it (R83). -/
theorem medianOf_sorted {l : List Int} (h : l.Pairwise (· ≤ ·)) : medianOf l =
    if l.length % 2 = 1 then l.getD ((l.length - 1) / 2) 0
    else (l.getD (l.length / 2 - 1) 0 + l.getD (l.length / 2) 0).fdiv 2 := by
  have : l.insertionSort (· ≤ ·) = l := List.Pairwise.insertionSort_eq h
  simp only [medianOf, this]

/-- A median lies between two of its values. -/
theorem medianOf_between {v : List Int} (h : v ≠ []) : (∃ x ∈ v, x ≤ medianOf v) ∧ ∃ x ∈ v, medianOf v ≤ x := by
  have hp := List.perm_insertionSort (· ≤ ·) v
  have hs : (v.insertionSort (· ≤ ·)).Pairwise (· ≤ ·) := List.pairwise_insertionSort _ v
  rw [← medianOf_perm hp, medianOf_sorted hs]
  generalize v.insertionSort (· ≤ ·) = l at hp hs
  have hpos : 0 < l.length := by rw [hp.length_eq]; exact List.length_pos_iff.mpr h
  have hm (i : Nat) (hi : i < l.length) : l[i] ∈ v := hp.subset (List.getElem_mem hi)
  split
  · rw [List.getD_eq_getElem _ _ (by omega)]
    exact ⟨⟨_, hm _ _, le_rfl⟩, ⟨_, hm _ _, le_rfl⟩⟩
  · rw [List.getD_eq_getElem _ _ (by omega), List.getD_eq_getElem _ _ (by omega),
      Int.fdiv_eq_ediv_of_nonneg _ (by norm_num)]
    have := List.pairwise_iff_getElem.mp hs (l.length / 2 - 1) (l.length / 2) (by omega) (by omega) (by omega)
    exact ⟨⟨_, hm (l.length / 2 - 1) (by omega), by omega⟩, ⟨_, hm (l.length / 2) (by omega), by omega⟩⟩

end Sys2Proof.Machine
end

