-- ==== Sys2Proof/Laws/Effects.lean ====
section
/-! SUPPORT. What an instruction can do, said once for each: if it answers a next state, that state and its report have this
form. Later proofs cite `exec_effect` and unfold no meaning. -/

namespace Sys2Proof.Machine

/-- `t` is `s` with nothing changed but a no-op's report. -/
def Silent (s t : State) : Prop := ∃ r, t = s.after s.blk (noopReport [] r)

/-- `t` is `s` after a notification frame was written to one buffer and its channel notified. -/
def Notified (s t : State) : Prop :=
  ∃ b payload df ch, b ∈ s.cfg.bufIds ∧ payload ≠ [] ∧ (∀ w ∈ payload, w.1 < 19) ∧
    t = s.after { s.blk with nbuf := mapSet b (writeBytes (s.nbufOf b) (payload ++ [(19, df)])) s.blk.nbuf }
      { doneReport [.emit (.notify ch)] .nothing with
        bufWrites := (payload.map fun w => (b, w.1, w.2)) ++ [(b, 19, df)] }

/-- `t` has the configuration and the port of `s`. -/
def Kept (s t : State) : Prop := t.cfg = s.cfg ∧ t.port = s.port

/-- The next state of each instruction. COMMAND's is that of the form its frame decodes to. -/
def Effect (i : Instr) (s t : State) : Prop :=
  match i with
  | .displayText d raw => t = s.after s.blk
      (doneReport [.emit .stopAnimation, .emit (.scrollText (textOf raw) (10 * d.toNat))] .nothing)
  | .displayPixels0 px => t = s.after { s.blk with grid := writeRows012 px s.blk.grid } (doneReport [] .nothing)
  | .displayPixels1 px => t = s.after { s.blk with grid := writeRows34 px s.blk.grid }
      (doneReport [.emit .stopAnimation, .emit (.flush (writeRows34 px s.blk.grid))] .nothing)
  | .pinSetPull p _ => Silent s t ∨ (p ∈ s.cfg.validPins ∧ ∃ m,
      t = s.after { s.blk with pull := mapSet p m s.blk.pull } (doneReport [.emit (.setPull p m)] .nothing))
  | .pinSetTouch p => Silent s t ∨ t = s.after s.blk (doneReport [.emit (.enableTouch p)] .nothing)
  | .pinSetOutput p v => Silent s t ∨ t = s.after s.blk (doneReport [.emit (.setDigitalValue p v)] .nothing)
  | .pinSetPwm p w => Silent s t ∨
      t = s.after s.blk (doneReport [.emit (.setAnalogValue p (clampDuty s.cfg w))] .nothing)
  | .pinSetServo p a r c => Silent s t ∨ t = s.after s.blk (doneReport [.emit (servoRequest p a r c)] .nothing)
  | .pinSetEvent p _ => Silent s t ∨ (p ∈ s.cfg.eventPins ∧ ∃ e xs,
      (∀ x ∈ xs, ∃ c h d k, x = .emit (.subscribe c h d) ∨ x = .emit (.unsubscribe c h) ∨
        x = .emit (.enableEdgeDetection p k)) ∧
      t = s.after { s.blk with sub := mapSet p e s.blk.sub } (doneReport xs .nothing))
  | .sharedData _ _ | .sharedSet _ _ => Silent s t ∨
      ∃ g, t = s.after { s.blk with sreg := g } (doneReport [] .nothing)
  | .command f => Silent s t ∨ ∃ j, decodeFrame s.cfg f = .form j ∧ exec j s = .next t
  | .sampleEnv buf => ∃ xs l ws, (∀ x ∈ xs, isRequest x = false) ∧ (∀ w ∈ ws, w.1 < 6) ∧ Kept s t ∧
      t.blk = { s.blk with lring := s.blk.lring.set s.blk.lidx l, lidx := (s.blk.lidx + 1) % s.cfg.nLight } ∧
      t.last = doneReport xs (.buffer (writeBytes buf ws))
  | .sampleOrient buf => ∃ xs ws, (∀ x ∈ xs, isRequest x = false) ∧ (∀ w ∈ ws, w.1 < 18) ∧ Kept s t ∧
      t.blk = s.blk ∧ t.last = doneReport xs (.buffer (writeBytes buf ws))
  | .sampleAnalog buf p =>
      (∃ xs r, (∀ x ∈ xs, isRequest x = false) ∧ Kept s t ∧ t.blk = s.blk ∧ t.last = noopReport xs r) ∨
      ∃ ring ws, p ∈ s.cfg.analogPins ∧ ring.length = s.cfg.nAnalog ∧ (∀ w ∈ ws, w.1 < 2) ∧ Kept s t ∧
        t.blk = { s.blk with aring := mapSet p ring s.blk.aring } ∧
        t.last = doneReport ([.askBool (.isInput p) true, .emit (.setPull p .none)] ++
          ring.map (fun w => Interaction.askAnalog (.getAnalogValue p) w) ++ [.emit (.setPull p (s.pullOf p))])
          (.buffer (writeBytes buf ws))
  | .hnorm _ _ | .tilt _ | .median _ | .sharedGet _ => ∃ r, t = s.after s.blk (doneReport [] (.int r))
  | .pinEventIn _ _ _ => Silent s t ∨ Notified s t
  | .buttonEventIn _ _ _ | .gestureEventIn _ _ => Notified s t
  | .reset => t = s.after (resetBlock s.cfg) (doneReport [] .nothing)

section

variable {s t : State}

/-- Only a legal configuration answers a next state (R91). -/
theorem legal_of_exec {i : Instr} (ht : exec i s = .next t) : s.cfg.legal = true := by
  by_contra hn
  cases i <;> simp [exec, execDisplayText, execDisplayPixels0, execDisplayPixels1, execPinSetPull, execPinSetTouch,
    execPinSetOutput, execPinSetPwm, execPinSetServo, execPinSetEvent, execSharedData, execCommand, execSampleEnv,
    execSampleOrient, execSampleAnalog, execHnorm, execTilt, execMedian, execPinEventIn, execButtonEventIn,
    execGestureEventIn, execSharedSet, execSharedGet, execReset, transact_of_illegal hn] at ht

theorem silent_of_noop {r : NoopReason} (ht : s.begin.noop r = .next t) : Silent s t := ⟨r, noop_next.mp ht⟩

theorem notified_of_finish {b : BufId} {payload : List (Nat × Byte)} {df : Byte} {ch : Channel}
    (hb : b ∈ s.cfg.bufIds) (h₀ : payload ≠ []) (h₁ : ∀ w ∈ payload, w.1 < 19)
    (ht : ((s.begin.writeNbuf b (payload ++ [(19, df)])).emit (.notify ch)).finish .nothing = .next t) :
    Notified s t := by
  refine ⟨b, payload, df, ch, hb, h₀, h₁, (finish_next.mp ht).trans ?_⟩
  have : [(b, 19, df)] = List.map (fun w => (b, w.1, w.2)) [((19 : Nat), df)] := rfl
  rw [this, ← List.map_append]
  rfl

theorem pinBuf_mem (c : Cfg) : pinBuf c ∈ c.bufIds := by
  unfold pinBuf Cfg.bufIds; cases c.eventBuffers <;> simp

theorem actionBuf_mem (c : Cfg) : actionBuf c ∈ c.bufIds := by
  unfold actionBuf Cfg.bufIds; cases c.eventBuffers <;> simp

/-- A form checked by its pin ends silently or as its body does. -/
theorem withValidPin_next {p : Pin} {body : State → Out} (h : s.cfg.legal = true)
    (ht : s.transact (fun s => withValidPin p s body) = .next t) :
    Silent s t ∨ (p ∈ s.cfg.validPins ∧ body s.begin = .next t) := by
  rw [transact_of_legal h] at ht
  by_cases hp : p ∈ s.cfg.validPins
  · rw [withValidPin_begin hp] at ht
    exact .inr ⟨hp, ht⟩
  · rw [withValidPin_begin_bad hp] at ht
    exact .inl (silent_of_noop ht)

theorem setPull_effect {p : Pin} {code : Byte} (h : s.cfg.legal = true) (ht : execPinSetPull p code s = .next t) :
    Effect (.pinSetPull p code) s t := by
  obtain h₁ | ⟨hp, h₁⟩ := withValidPin_next h ht
  · exact .inl h₁
  · split at h₁
    · exact .inl (silent_of_noop h₁)
    · exact .inr ⟨hp, _, finish_next.mp h₁⟩

theorem setEvent_effect {p : Pin} {type : Byte} (h : s.cfg.legal = true) (ht : execPinSetEvent p type s = .next t) :
    Effect (.pinSetEvent p type) s t := by
  unfold execPinSetEvent at ht
  rw [transact_of_legal h] at ht
  cases hc : componentOf s.begin.cfg p with
  | none => rw [hc] at ht; exact .inl (silent_of_noop ht)
  | some cid =>
    rw [hc] at ht
    dsimp only at ht
    have hp : p ∈ s.cfg.eventPins :=
      mapFind?_isSome.mp (by rw [show mapFind? p s.cfg.identifierTable = some cid from hc]; rfl)
    split at ht
    · exact .inl (silent_of_noop ht)
    · exact .inr ⟨hp, { s.subOf p with en := false },
        [.emit (.unsubscribe cid .pinHandler), .emit (.enableEdgeDetection p none)], by simp, finish_next.mp ht⟩
    · rename_i k _
      exact .inr ⟨hp, { en := true, kind := k },
        [.emit (.subscribe cid .pinHandler .dropIfBusy), .emit (.enableEdgeDetection p (some k))], by simp,
        finish_next.mp ht⟩

/-- COMMAND on a frame that decodes to a form runs the form. -/
theorem execCommand_form {f : List Byte} {i : Instr} (hd : decodeFrame s.cfg f = .form i) :
    execCommand f s = s.transact fun s => runForm i s := by
  simp only [execCommand, State.transact, State.begin_cfg, hd]

/-- A form run in the state COMMAND begins in is the form run by itself. -/
theorem runForm_begin {i : Instr} (hf : i.isForm = true) (h : s.cfg.legal = true) : runForm i s.begin = exec i s := by
  cases i <;> simp_all [Instr.isForm, runForm, exec, execDisplayText, execDisplayPixels0, execDisplayPixels1,
    execPinSetPull, execPinSetTouch, execPinSetOutput, execPinSetPwm, execPinSetServo, execPinSetEvent, execSharedData,
    State.transact]

theorem command_effect {f : List Byte} (h : s.cfg.legal = true) (ht : execCommand f s = .next t) :
    Effect (.command f) s t := by
  unfold execCommand at ht
  rw [transact_of_legal h] at ht
  split at ht
  · cases ht
  · exact .inl (silent_of_noop ht)
  · rename_i i hd
    rw [runForm_begin (decodeFrame_isForm hd) h] at ht
    exact .inr ⟨i, hd, ht⟩

theorem sampleEnv_effect {buf : List Byte} (h : s.cfg.legal = true) (ht : execSampleEnv buf s = .next t) :
    Effect (.sampleEnv buf) s t := by
  unfold execSampleEnv at ht
  rw [transact_of_legal h] at ht
  split at ht
  · cases ht
  · rw [finish_next] at ht
    let mask := digitalMask s.begin
    let l := mask.2.askLight .readLightLevel
    let m := lchPush l.1 l.2
    let temp := m.2.askInt .getTemperature
    obtain ⟨xs, hx⟩ := digitalMask_asked s.begin
    have e := hx.trans (askLight_asked .readLightLevel mask.2)
    refine ⟨(xs ++ [.askLight .readLightLevel l.1]) ++ [.askInt .getTemperature temp.1], l.1,
      envFields mask.1 m.1 temp.1, ?_, by simp [envFields, put32le, put8], ⟨?_, ?_⟩, ?_, ?_⟩
    · intro x hm
      rcases List.mem_append.mp hm with hm | hm
      · exact e.quiet x hm
      · rw [List.mem_singleton.mp hm]; rfl
    · subst ht; exact e.cfg
    · subst ht; exact e.port
    · subst ht
      show ({ l.2.blk with lring := _, lidx := (l.2.blk.lidx + 1) % l.2.cfg.nLight } : Block) = _
      rw [e.blk, e.cfg]; rfl
    · subst ht
      show ({ trace := l.2.last.trace ++ [_], result := _, noop := l.2.last.noop, bufWrites := l.2.last.bufWrites } :
        Report) = _
      rw [e.last]; rfl

theorem sampleOrient_effect {buf : List Byte} (h : s.cfg.legal = true) (ht : execSampleOrient buf s = .next t) :
    Effect (.sampleOrient buf) s t := by
  unfold execSampleOrient at ht
  rw [transact_of_legal h] at ht
  split at ht
  · cases ht
  · rw [finish_next] at ht
    let pr := s.begin.askReal .getPitchRadians
    let rr := pr.2.askReal .getRollRadians
    let ax := rr.2.askInt .getAccelX
    let ay := ax.2.askInt .getAccelY
    let az := ay.2.askInt .getAccelZ
    let h := az.2.askInt .getCompassHeading
    let mx := h.2.askInt .getCompassX
    let my := mx.2.askInt .getCompassY
    let mz := my.2.askInt .getCompassZ
    have e := ((((((((askReal_asked .getPitchRadians s.begin).trans (askReal_asked .getRollRadians pr.2)).trans
      (askInt_asked .getAccelX rr.2)).trans (askInt_asked .getAccelY ax.2)).trans (askInt_asked .getAccelZ ay.2)).trans
      (askInt_asked .getCompassHeading az.2)).trans (askInt_asked .getCompassX h.2)).trans
      (askInt_asked .getCompassY mx.2)).trans (askInt_asked .getCompassZ my.2)
    refine ⟨[.askReal .getPitchRadians pr.1, .askReal .getRollRadians rr.1, .askInt .getAccelX ax.1,
      .askInt .getAccelY ay.1, .askInt .getAccelZ az.1, .askInt .getCompassHeading h.1, .askInt .getCompassX mx.1,
      .askInt .getCompassY my.1, .askInt .getCompassZ mz.1],
      orientFields s.cfg pr.1 rr.1 ax.1 ay.1 az.1 h.1 mx.1 my.1 mz.1, by simp [isRequest],
      by simp [orientFields, put16le], ⟨?_, ?_⟩, ?_, ?_⟩
    · subst ht; exact e.cfg
    · subst ht; exact e.port
    · subst ht; exact e.blk
    · subst ht
      show ({ mz.2.last with result := _ } : Report) = _
      rw [e.last]; rfl

theorem sampleAnalog_effect {buf : List Byte} {p : Pin} (h : s.cfg.legal = true)
    (ht : execSampleAnalog buf p s = .next t) : Effect (.sampleAnalog buf p) s t := by
  unfold execSampleAnalog at ht
  rw [transact_of_legal h] at ht
  split at ht
  · cases ht
  split at ht
  · rw [noop_next] at ht
    subst ht
    exact .inl ⟨[], _, by simp, ⟨rfl, rfl⟩, rfl, rfl⟩
  rename_i hp
  dsimp only at ht
  split at ht
  · rw [noop_next] at ht
    subst ht
    exact .inl ⟨[.askBool (.isInput p) (s.begin.askBool (.isInput p)).1], _, by simp [isRequest], ⟨rfl, rfl⟩, rfl, rfl⟩
  rename_i hin
  have hin' : (State.askBool (.isInput p) s.begin).1 = true := by simpa using hin
  rw [finish_next] at ht
  let u := (s.begin.askBool (.isInput p)).2.emit (.setPull p .none)
  let v := takeSamples p s.cfg.nAnalog u
  have e : Asked u v.2 _ := takeSamples_asked p s.cfg.nAnalog u
  have hq : (achFill p u).2.pullOf p = s.pullOf p := by
    show mapGet p v.2.cfg.pullReset v.2.blk.pull = _
    rw [e.cfg, e.blk]; rfl
  rw [hq] at ht
  refine .inr ⟨v.1, put16le 0 (achFill p u).1, not_not.mp hp, length_takeSamples p s.cfg.nAnalog u, by simp [put16le],
    ⟨?_, ?_⟩, ?_, ?_⟩
  · subst ht; exact e.cfg
  · subst ht; exact e.port
  · subst ht
    show ({ v.2.blk with aring := mapSet p _ v.2.blk.aring } : Block) = _
    rw [e.blk]; rfl
  · subst ht
    refine (Report.mk.injEq ..).mpr ⟨?_, rfl, ?_, ?_⟩
    · show v.2.last.trace ++ [_] = _
      rw [e.last, ← hin']; rfl
    · show v.2.last.noop = _
      rw [e.last]; rfl
    · show v.2.last.bufWrites = _
      rw [e.last]; rfl

/-- What each instruction can do: a next state of `exec` has the form `Effect` gives it. -/
theorem exec_effect {i : Instr} (ht : exec i s = .next t) : Effect i s t := by
  have h := legal_of_exec ht
  cases i <;> rw [exec] at ht
  case displayText | displayPixels0 | displayPixels1 | reset =>
    exact finish_next.mp ((transact_next.mp ht).2)
  case pinSetPull => exact setPull_effect h ht
  case pinSetTouch | pinSetOutput | pinSetPwm | pinSetServo =>
    exact (withValidPin_next h ht).imp_right fun h => finish_next.mp h.2
  case pinSetEvent => exact setEvent_effect h ht
  case sharedData | sharedSet =>
    have ht := (transact_next.mp ht).2
    split at ht
    · exact .inl (silent_of_noop ht)
    · exact .inr ⟨_, finish_next.mp ht⟩
  case sharedGet =>
    have ht := (transact_next.mp ht).2
    split at ht
    · exact ⟨_, finish_next.mp ht⟩
    · exact ⟨_, finish_next.mp ht⟩
  case hnorm | tilt => exact ⟨_, finish_next.mp ((transact_next.mp ht).2)⟩
  case median =>
    have ht := (transact_next.mp ht).2
    split at ht
    · cases ht
    split at ht
    · cases ht
    exact ⟨_, finish_next.mp ht⟩
  case command => exact command_effect h ht
  case pinEventIn =>
    have ht := (transact_next.mp ht).2
    split at ht
    · exact .inl (silent_of_noop ht)
    · exact .inr (notified_of_finish (pinBuf_mem _) (by simp [put8]) (by simp [put8, put32le]) ht)
  case buttonEventIn | gestureEventIn =>
    exact notified_of_finish (actionBuf_mem _) (by simp [put8]) (by simp [put8, put32le]) (transact_next.mp ht).2
  case sampleEnv => exact sampleEnv_effect h ht
  case sampleOrient => exact sampleOrient_effect h ht
  case sampleAnalog => exact sampleAnalog_effect h ht

end

end Sys2Proof.Machine
end

