-- ==== Sys2Proof/Laws/Reals.lean ====
section
/-! SUPPORT. The exact-real operations mean what their names say on the real numbers. -/

namespace Sys2Proof.Machine

/-- An enclosure that settles the floor settles it right. -/
theorem floor_of_settled (y : KappaReal) (n : Nat) (h : (kappaRealLo y n).floor = (kappaRealHi y n).floor) :
    (kappaRealLo y n).floor = ⌊kappaVal y⌋ := by
  have hlo := kappaLo_le y.unit n
  have hhi := le_kappaHi y.unit n
  have e1 : (kappaRealLo y n).floor = ⌊(kappaRealLo y n : ℝ)⌋ := (Rat.floor_cast _).symm
  have e2 : (kappaRealHi y n).floor = ⌊(kappaRealHi y n : ℝ)⌋ := (Rat.floor_cast _).symm
  rcases le_total 0 y.coef with hc | hc
  · have hc' : (0 : ℝ) ≤ y.coef := by exact_mod_cast hc
    have a : (kappaRealLo y n : ℝ) ≤ kappaVal y := by simp only [kappaRealLo, kappaVal]; push_cast; gcongr
    have b : kappaVal y ≤ (kappaRealHi y n : ℝ) := by simp only [kappaRealHi, kappaVal]; push_cast; gcongr
    exact le_antisymm (e1 ▸ Int.floor_mono a) (h.trans e2 ▸ Int.floor_mono b)
  · have hc' : (y.coef : ℝ) ≤ 0 := by exact_mod_cast hc
    have a : kappaVal y ≤ (kappaRealLo y n : ℝ) := by
      simp only [kappaRealLo, kappaVal]; push_cast
      exact add_le_add_right (mul_le_mul_of_nonpos_left hlo hc') _
    have b : (kappaRealHi y n : ℝ) ≤ kappaVal y := by
      simp only [kappaRealHi, kappaVal]; push_cast
      exact add_le_add_right (mul_le_mul_of_nonpos_left hhi hc') _
    exact le_antisymm (h.trans e2 ▸ Int.floor_mono b) (e1 ▸ Int.floor_mono a)

theorem settledFloor_sound (y : KappaReal) (ns : List Nat) (k : Int) (h : settledFloor y ns = some k) :
    k = ⌊kappaVal y⌋ := by
  induction ns with
  | nil => cases h
  | cons n ns ih =>
    simp only [settledFloor] at h
    split at h
    · cases h; exact floor_of_settled y n ‹_›
    · exact ih h

/-- The computed floor is the floor of the real number. -/
theorem kappaFloor_eq (y : KappaReal) : kappaFloor y = ⌊kappaVal y⌋ := by
  unfold kappaFloor
  split
  · rename_i h
    simp only [kappaVal, h, Rat.cast_zero, zero_mul, add_zero]
    exact (Rat.floor_cast _).symm
  · rename_i h
    split
    · exact settledFloor_sound y _ _ ‹_›
    · exact floor_of_settled y _ (Nat.find_spec (exists_settled y h))

/-- The floor of a real of the arithmetic is its floor. -/
theorem exactFloor_eq (y : ExactReal) : exactFloor y = ⌊exactToReal y⌋ := by
  obtain ⟨base, coef, unit⟩ := y
  cases unit with
  | kappa κ => exact kappaFloor_eq _
  | named n => exact (Config.anyReal n).floorAt_eq base coef
  | namedOverPi n => exact (Config.anyReal n).floorOverPi_eq base coef

@[simp] theorem exactToReal_neg (y : ExactReal) : exactToReal (exactNeg y) = -exactToReal y := by
  simp [exactToReal, exactNeg]; ring

@[simp] theorem exactToReal_add (k : Rat) (y : ExactReal) : exactToReal (exactAdd k y) = k + exactToReal y := by
  simp [exactToReal, exactAdd]; ring

@[simp] theorem exactToReal_scale (k : Rat) (y : ExactReal) : exactToReal (exactScale k y) = k * exactToReal y := by
  simp [exactToReal, exactScale]; ring

theorem exactIsNeg_iff (y : ExactReal) : exactIsNeg y = true ↔ exactToReal y < 0 := by
  simp [exactIsNeg, exactFloor_eq, Int.floor_lt]

/-- The computed truncation is the truncation of the real number. -/
theorem exactTrunc_eq (y : ExactReal) : exactTrunc y = truncReal (exactToReal y) := by
  unfold exactTrunc truncReal
  by_cases h : exactToReal y < 0
  · rw [if_pos ((exactIsNeg_iff y).mpr h), if_pos h, exactFloor_eq, exactToReal_neg, Int.floor_neg, neg_neg]
  · rw [if_neg (fun e => h ((exactIsNeg_iff y).mp e)), if_neg h, exactFloor_eq]

/-- P_ROUND of the model is P_ROUND on the real numbers. -/
theorem roundReal_eq (c : Cfg) (y : ExactReal) : roundReal c y = roundOf c (exactToReal y) := by
  unfold roundReal roundOf
  cases c.round with
  | towardZero => exact exactTrunc_eq y
  | named n => rfl

@[simp] theorem exactToReal_angle (θ : RealNum) : exactToReal (angleExact θ) = angleReal θ := by
  cases θ <;> simp [angleExact, exactToReal, unitReal, kappaReal, angleReal]

/-- The tilt ratio is `(rad · 180 / π) / 90` (R81). -/
theorem exactToReal_tiltRatio (θ : RealNum) : exactToReal (tiltRatio θ) = angleReal θ * 180 / Real.pi / 90 := by
  have := Real.pi_ne_zero
  cases θ with
  | exact a b =>
    simp only [exactToReal, tiltRatio, unitReal, kappaReal, angleReal]
    push_cast
    field_simp
    ring
  | named n =>
    simp only [exactToReal, tiltRatio, unitReal, angleReal]
    push_cast
    field_simp
    ring

/-- Every real number is one that `Config.anyReal` can hold: it has an oracle. -/
theorem exists_realOracle (x : ℝ) : ∃ o : RealOracle, o.val = x :=
  ⟨{ val := x
     floorAt := fun a b => ⌊(a : ℝ) + b * x⌋
     floorOverPi := fun a b => ⌊(a : ℝ) + b * (x / Real.pi)⌋
     floorAt_eq := fun _ _ => rfl
     floorOverPi_eq := fun _ _ => rfl }, rfl⟩

end Sys2Proof.Machine
end

