-- ==== Sys2Proof/Laws/Fields.lean ====
section
/-! SUPPORT. The fields the block writes, said once: 16-bit and 32-bit fields in a buffer, saturation and truncation, a bit of the
digital mask, one byte of a notification buffer, and P_ROUND and the tilt fold on the real numbers. -/

namespace Sys2Proof.Machine

/-- A 16-bit field among writes to distinct offsets reads back as what was written. -/
theorem u16leAt_writeBytes {b : List Byte} {ws : List (Nat × Byte)} (hn : (ws.map Prod.fst).Nodup)
    (hb : ∀ w ∈ ws, w.1 < b.length) {i : Nat} {v : Int} (hm : put16le i v ⊆ ws) :
    u16leAt (writeBytes b ws) i = trunc16 v := by
  have m₁ := hm (show (i, lowByte (trunc16 v)) ∈ put16le i v by simp [put16le])
  have m₂ := hm (show (i + 1, highByte (trunc16 v)) ∈ put16le i v by simp [put16le])
  unfold u16leAt u8At
  rw [List.getD_eq_getElem?_getD, List.getD_eq_getElem?_getD, writeBytes_of_mem hn m₁ b (hb _ m₁),
    writeBytes_of_mem hn m₂ b (hb _ m₂)]
  exact high_append_low _

/-- Byte k of a 32-bit field. -/
theorem mem_put32le (i n : Nat) {k : Nat} (hk : k < 4) : (i + k, byteOf n k) ∈ put32le i (trunc32 n) := by
  have h : (trunc32 n).extractLsb' (8 * k) 8 = byteOf n k := by
    apply BitVec.eq_of_toNat_eq
    simp only [trunc32, byteOf, BitVec.extractLsb'_toNat, BitVec.toNat_ofNat, Nat.shiftRight_eq_div_pow]
    interval_cases k <;> omega
  rw [← h]
  interval_cases k <;> simp [put32le]

theorem toInt_trunc16_satS16 (v : Int) : (trunc16 (satS16 v)).toInt = max (-32768) (min 32767 v) := by
  unfold trunc16 satS16
  rw [BitVec.toInt_ofInt, Int.bmod_def]
  split <;> simp <;> omega

theorem toNat_trunc16_satU16 (v : Int) : ((trunc16 (satU16 v)).toNat : Int) = max 0 (min 65535 v) := by
  unfold trunc16 satU16
  rw [BitVec.toNat_ofInt]
  simp; omega

theorem toNat_trunc8 {v : Int} (h₀ : 0 ≤ v) (h₁ : v < 256) : ((trunc8 v).toNat : Int) = v := by
  unfold trunc8
  rw [BitVec.toNat_ofInt]
  simp; omega

/-- Adding a power of two sets a bit that was clear and changes no other. -/
theorem testBit_add_two_pow {n p : Nat} (h : n.testBit p = false) (k : Nat) :
    (n + 2 ^ p).testBit k = (n.testBit k || decide (k = p)) := by
  rcases Nat.lt_trichotomy k p with hk | rfl | hk
  · rw [Nat.add_comm, Nat.testBit_two_pow_add_gt hk]; simp [hk.ne]
  · rw [Nat.add_comm, Nat.testBit_two_pow_add_eq]; simp [h]
  · obtain ⟨j, rfl⟩ : ∃ j, k = p + 1 + j := ⟨k - (p + 1), by omega⟩
    have hp : 2 ^ (p + 1) = 2 * 2 ^ p := by ring
    have hm : n % 2 ^ (p + 1) < 2 ^ p := by
      have hd := Nat.testBit_eq_decide_div_mod_eq (x := n) (i := p)
      rw [h] at hd
      have hz : n / 2 ^ p % 2 = 0 := by simp at hd; omega
      rw [pow_succ, Nat.mod_mul, hz]
      simpa using Nat.mod_lt n (Nat.two_pow_pos p)
    have e : (n + 2 ^ p) / 2 ^ (p + 1) = n / 2 ^ (p + 1) := by
      have hd := Nat.div_add_mod n (2 ^ (p + 1))
      rw [← hd, Nat.add_assoc, Nat.mul_add_div (by positivity), Nat.mul_add_div (by positivity),
        Nat.div_eq_of_lt (show n % 2 ^ (p + 1) + 2 ^ p < 2 ^ (p + 1) by omega),
        Nat.div_eq_of_lt (show n % 2 ^ (p + 1) < 2 ^ (p + 1) by omega)]
    have e₁ := @Nat.testBit_div_two_pow (p + 1) (n + 2 ^ p) j
    have e₂ := @Nat.testBit_div_two_pow (p + 1) n j
    rw [show p + 1 + j = j + (p + 1) by omega, ← e₁, ← e₂, e]
    simp; omega

/-- A pin's level sets its bit of the mask and no other (R77). -/
theorem testBit_withLevel {p : Pin} {mask : Nat} (h : mask.testBit p.toNat = false) (v : Int) (k : Nat) :
    (withLevel p v mask).testBit k = (mask.testBit k || (decide (k = p.toNat) && decide (v ≠ 0))) := by
  unfold withLevel
  split
  · rename_i hv; rw [testBit_add_two_pow h]; simp [hv]
  · simp_all

/-- One byte of a notification buffer after a frame was written to one of them: under the invariant, a byte a write names holds what
the write gave it, every other byte of every buffer is as it was. -/
theorem nbufByte_written {s : State} (hi : s.Inv) (h : s.cfg.legal = true) {b : BufId} (hb : b ∈ s.cfg.bufIds)
    {ws : List (Nat × Byte)} (hn : (ws.map Prod.fst).Nodup) (hl : ∀ w ∈ ws, w.1 < 20) (r : Report) :
    let t := s.after { s.blk with nbuf := mapSet b (writeBytes (s.nbufOf b) ws) s.blk.nbuf } r;
    (∀ k v, (k, v) ∈ ws → t.nbufByte b k = some v) ∧ (∀ k, (∀ w ∈ ws, w.1 ≠ k) → t.nbufByte b k = s.nbufByte b k) ∧
    ∀ b', b' ≠ b → ∀ k, t.nbufByte b' k = s.nbufByte b' k := by
  obtain ⟨-, -, -, -, -, -, i₇, i₈⟩ := hi
  have hlen : (s.nbufOf b).length = s.cfg.notifyLen := i₈ _ (mapGet_mem _ (by rw [i₇]; exact hb))
  have hmin := (legal_counts h).1
  refine ⟨?_, ?_, ?_⟩
  · intro k v hm
    show (mapGet b _ (mapSet b _ _))[k]? = _
    rw [mapGet_mapSet_self]
    have := hl _ hm
    exact writeBytes_of_mem hn hm _ (by simp at this; omega)
  · intro k hk
    show (mapGet b _ (mapSet b _ _))[k]? = _
    rw [mapGet_mapSet_self, writeBytes_other hk]; rfl
  · intro b' hb' k
    show (mapGet b' _ (mapSet b _ _))[k]? = _
    rw [mapGet_mapSet_other hb']; rfl

/-- A code map that is a partial map gives a code the byte it maps it to. -/
theorem lookupCode_eq_some {m : CodeMap} (hm : (m.entries.map Prod.fst).Nodup) {code : Int} {b : Byte} :
    lookupCode m code = some b ↔ mapsTo m code b := by
  cases m with
  | table entries => exact ⟨mapFind?_mem, mapFind?_of_mem hm⟩
  | named n => exact Iff.rfl

/-- What an event encoder writes for a code: its byte in the map (R73, R74). -/
theorem mappedCode_of_mapsTo {m : CodeMap} (hm : (m.entries.map Prod.fst).Nodup) {code : Int} {b : Byte}
    (h : mapsTo m code b) : mappedCode m code = b := by
  rw [mappedCode, (lookupCode_eq_some hm).mpr h]; rfl

/-- An unmapped code is written as its low 8 bits (R73, R74). -/
theorem mappedCode_of_unmapped {m : CodeMap} (hm : (m.entries.map Prod.fst).Nodup) {code : Int}
    (h : ∀ b, ¬ mapsTo m code b) : mappedCode m code = trunc8 code := by
  have : lookupCode m code = none :=
    Option.eq_none_iff_forall_ne_some.mpr fun b e => h b ((lookupCode_eq_some hm).mp e)
  rw [mappedCode, this]; rfl

/-- The pixels of a flush are the cells of its grid, x the column and y the row (R33, R60). -/
theorem mem_setPixels_flush {g : Grid} {p : Pixel} : p ∈ setPixels (.flush g) ↔ p = cellPixel g p.y p.x := by
  simp only [setPixels, List.mem_flatMap, List.mem_map, List.mem_finRange, true_and]
  constructor
  · rintro ⟨r, c, rfl⟩; rfl
  · exact fun h => ⟨p.y, p.x, h.symm⟩

/-- The default P_ROUND is truncation of the real number. -/
theorem roundReal_towardZero {c : Cfg} (h : c.round = .towardZero) (y : ExactReal) :
    roundReal c y = truncReal (exactToReal y) := by
  rw [roundReal_eq, roundOf, h]

/-- The fold on the real numbers: one reflection beyond ±1 (R81). -/
theorem exactToReal_foldRatio (x : ExactReal) : exactToReal (foldRatio x) =
    if 1 < exactToReal x then 2 - exactToReal x else if exactToReal x < -1 then -2 - exactToReal x else exactToReal x := by
  have h₁ := exactIsNeg_iff (exactAdd 1 (exactNeg x))
  have h₂ := exactIsNeg_iff (exactAdd 1 x)
  simp at h₁ h₂
  unfold foldRatio
  by_cases c₁ : 1 < exactToReal x
  · rw [if_pos (h₁.mpr c₁), if_pos c₁]; simp; ring
  rw [if_neg (fun e => c₁ (h₁.mp e)), if_neg c₁]
  by_cases c₂ : exactToReal x < -1
  · rw [if_pos (h₂.mpr (by linarith)), if_pos c₂]; simp; ring
  · rw [if_neg (fun e => c₂ (by have := h₂.mp e; linarith)), if_neg c₂]

end Sys2Proof.Machine
end

