-- ==== Sys2Proof/Laws/PerInstr.lean ====
section
/-! SUPPORT. Statements about every instruction as syntax, one lemma per constructor. -/

namespace Sys2Proof.Laws

/-- An instruction has an encoding exactly when it is a wire form, and a well-formed one's encoding is a frame of 2 to 20 bytes (R41,
R51, R53). -/
def EncodedLength.Statement (i : Instr) : Prop :=
  ∀ c : Cfg, ((encode c i).isSome = i.isForm) ∧
    ∀ f, encode c i = some f → i.wellFormed = true → 2 ≤ f.length ∧ f.length ≤ 20

theorem EncodedLength.displayText (d : Byte) (t : List Byte) : EncodedLength.Statement (.displayText d t) := by
  exact fun c => ⟨rfl, fun f hf hw => by cases hf; simp [Instr.wellFormed] at hw ⊢; omega⟩
theorem EncodedLength.displayPixels0 (px : Vector Byte 15) : EncodedLength.Statement (.displayPixels0 px) := by
  exact fun c => ⟨rfl, fun f hf _ => by cases hf; simp⟩
theorem EncodedLength.displayPixels1 (px : Vector Byte 10) : EncodedLength.Statement (.displayPixels1 px) := by
  exact fun c => ⟨rfl, fun f hf _ => by cases hf; simp⟩
theorem EncodedLength.pinSetPull (p : Pin) (m : Byte) : EncodedLength.Statement (.pinSetPull p m) := by
  exact fun c => ⟨rfl, fun f hf _ => by cases hf; simp⟩
theorem EncodedLength.pinSetTouch (p : Pin) : EncodedLength.Statement (.pinSetTouch p) := by
  exact fun c => ⟨rfl, fun f hf _ => by cases hf; simp⟩
theorem EncodedLength.pinSetOutput (p : Pin) (v : Byte) : EncodedLength.Statement (.pinSetOutput p v) := by
  exact fun c => ⟨rfl, fun f hf _ => by cases hf; simp⟩
theorem EncodedLength.pinSetPwm (p : Pin) (w : Word16) : EncodedLength.Statement (.pinSetPwm p w) := by
  exact fun c => ⟨rfl, fun f hf _ => by cases hf; simp⟩
theorem EncodedLength.pinSetServo (p : Pin) (a r m : Word16) : EncodedLength.Statement (.pinSetServo p a r m) := by
  exact fun c => ⟨rfl, fun f hf _ => by cases hf; simp⟩
theorem EncodedLength.pinSetEvent (p : Pin) (t : Byte) : EncodedLength.Statement (.pinSetEvent p t) := by
  exact fun c => ⟨rfl, fun f hf _ => by cases hf; simp⟩
theorem EncodedLength.sharedData (k : Byte) (v : Word16) : EncodedLength.Statement (.sharedData k v) := by
  exact fun c => ⟨rfl, fun f hf _ => by cases hf; simp⟩
theorem EncodedLength.command (f : List Byte) : EncodedLength.Statement (.command f) := by
  exact fun c => ⟨rfl, fun f hf _ => by cases hf⟩
theorem EncodedLength.sampleEnv (b : List Byte) : EncodedLength.Statement (.sampleEnv b) := by
  exact fun c => ⟨rfl, fun f hf _ => by cases hf⟩
theorem EncodedLength.sampleOrient (b : List Byte) : EncodedLength.Statement (.sampleOrient b) := by
  exact fun c => ⟨rfl, fun f hf _ => by cases hf⟩
theorem EncodedLength.sampleAnalog (b : List Byte) (p : Pin) : EncodedLength.Statement (.sampleAnalog b p) := by
  exact fun c => ⟨rfl, fun f hf _ => by cases hf⟩
theorem EncodedLength.hnorm (h : Int) (d : Bool) : EncodedLength.Statement (.hnorm h d) := by
  exact fun c => ⟨rfl, fun f hf _ => by cases hf⟩
theorem EncodedLength.tilt (r : RealNum) : EncodedLength.Statement (.tilt r) := by
  exact fun c => ⟨rfl, fun f hf _ => by cases hf⟩
theorem EncodedLength.median (v : List Int) : EncodedLength.Statement (.median v) := by
  exact fun c => ⟨rfl, fun f hf _ => by cases hf⟩
theorem EncodedLength.pinEventIn (c : ComponentId) (e : Int) (t : Nat) : EncodedLength.Statement (.pinEventIn c e t) := by
  exact fun c => ⟨rfl, fun f hf _ => by cases hf⟩
theorem EncodedLength.buttonEventIn (c : ComponentId) (e : Int) (t : Nat) : EncodedLength.Statement (.buttonEventIn c e t) := by
  exact fun c => ⟨rfl, fun f hf _ => by cases hf⟩
theorem EncodedLength.gestureEventIn (c : Int) (t : Nat) : EncodedLength.Statement (.gestureEventIn c t) := by
  exact fun c => ⟨rfl, fun f hf _ => by cases hf⟩
theorem EncodedLength.sharedSet (k v : Int) : EncodedLength.Statement (.sharedSet k v) := by
  exact fun c => ⟨rfl, fun f hf _ => by cases hf⟩
theorem EncodedLength.sharedGet (k : Int) : EncodedLength.Statement (.sharedGet k) := by
  exact fun c => ⟨rfl, fun f hf _ => by cases hf⟩
theorem EncodedLength.reset : EncodedLength.Statement (.reset) := by
  exact fun c => ⟨rfl, fun f hf _ => by cases hf⟩

end Sys2Proof.Laws
end

