-- ==== Sys2Proof/Tests/Slice0.lean ====
section
/-! SUPPORT. Tests. Expected values are the spec's own: R47 and R52 for the words, spec/95_test_vectors.md (named by their rows:
L1.1, P1, D1, N1, E1, T1, M1, S1, R1) for the operations, all under its binding T. Then the smoke tests of well-formedness and of
the configuration's constraints, and for each statement with hypotheses a witness that meets them. -/

namespace Sys2Proof.Tests

open Sys2Proof Sys2Proof.Machine

-- One theorem at a time: each waits for the kernel, and every waiting theorem would hold a thread with its own stack.
set_option Elab.async false

/-- The state right after reset under T. -/
def base : State := State.reset

/-- The outcome is a next state with property `P`. -/
def holds (o : Out) (P : State → Bool) : Bool :=
  match o with
  | .next t => P t
  | .fault _ | .refused _ => false

/-- The outcome is this refusal. -/
def refuses (o : Out) (r : Refusal) : Bool :=
  match o with
  | .refused r' => r' = r
  | .next _ | .fault _ => false

theorem exists_of_holds {o : Out} {P : State → Bool} (h : holds o P = true) : ∃ t, o = .next t ∧ P t = true := by
  cases o with
  | next t => exact ⟨t, rfl, h⟩
  | fault r => cases h
  | refused r => cases h

/-- The requests of an operation's trace, and its questions. -/
def emitted (t : State) : List Request := t.last.trace.filterMap fun x => match x with
  | .emit r => some r
  | .askBool _ _ | .askInt _ _ | .askAnalog _ _ | .askLight _ _ | .askReal _ _ => none

/-- A frame of COMMAND emits these requests and leaves `S` as reset left it. -/
def emits (f : List Byte) (rs : List Request) : Bool :=
  holds (exec (.command f) base) fun t => emitted t = rs && t.blk = base.blk && t.last.noop = none

/-- A frame of COMMAND is this no-op. -/
def rejects (f : List Byte) (r : NoopReason) : Bool :=
  holds (exec (.command f) base) fun t => t.last.noop = some r && t.blk = base.blk && t.last.trace = []

/-- The sequence of operations ends in a state with property `P`. -/
def ends (s : State) (P : State → Bool) : List Instr → Bool
  | [] => P s
  | i :: is => match exec i s with
    | .next t => ends t P is
    | .fault _ | .refused _ => false

/-! ## Decoding: words written out from R47 under T -/

theorem test_decode_text : decodeFrame Cfg.bindingT [0x20, 0xFF, 0x41, 0x00, 0x42] =
    .form (.displayText 255 [0x41, 0x00, 0x42]) := by decide +kernel
theorem test_decode_pixels0 : decodeFrame Cfg.bindingT [0x21, 1, 2, 3, 4, 5, 6, 7, 8, 9, 10, 11, 12, 13, 14, 15] =
    .form (.displayPixels0 #v[1, 2, 3, 4, 5, 6, 7, 8, 9, 10, 11, 12, 13, 14, 15]) := by decide +kernel
theorem test_decode_pixels1 : decodeFrame Cfg.bindingT [0x22, 16, 17, 18, 19, 20, 21, 22, 23, 24, 25, 99] =
    .form (.displayPixels1 #v[16, 17, 18, 19, 20, 21, 22, 23, 24, 25]) := by decide +kernel
theorem test_decode_setPull : decodeFrame Cfg.bindingT [0x40, 0x15, 0x07] = .form (.pinSetPull 21 7) := by decide +kernel
theorem test_decode_setTouch : decodeFrame Cfg.bindingT [0x41, 0x01] = .form (.pinSetTouch 1) := by decide +kernel
theorem test_decode_setOutput : decodeFrame Cfg.bindingT [0x42, 0x02, 0x05, 0xAA] = .form (.pinSetOutput 2 5) := by
  decide +kernel
theorem test_decode_setPwm : decodeFrame Cfg.bindingT [0x43, 0x07, 0x34, 0x12] = .form (.pinSetPwm 7 0x1234) := by
  decide +kernel
theorem test_decode_setServo :
    decodeFrame Cfg.bindingT [0x44, 0x03, 0x01, 0x02, 0xEE, 0x03, 0x04, 0x05, 0x06] =
      .form (.pinSetServo 3 0x0201 0x0403 0x0605) := by decide +kernel
theorem test_decode_setEvent : decodeFrame Cfg.bindingT [0x45, 0x0D, 0x03] = .form (.pinSetEvent 13 3) := by
  decide +kernel
theorem test_decode_sharedData : decodeFrame Cfg.bindingT [0x7F, 0x01, 0x00, 0x80] = .form (.sharedData 1 0x8000) := by
  decide +kernel

theorem test_encode_setServo : encode Cfg.bindingT (.pinSetServo 3 0x0201 0x0403 0x0605) =
    some [0x44, 0x03, 0x01, 0x02, 0x00, 0x03, 0x04, 0x05, 0x06] := by decide +kernel
theorem test_tableWord : decodeTableWord 32 0x04000043 = some (.pinSetPwm 0 0x0400) := by decide +kernel
theorem test_fetchWord : holds (step (base.withFetchWord 32 0x04000043)) (fun t => emitted t = [.setAnalogValue 0 1023]) =
    true := by decide +kernel

/-! ## The parser: P1 to P12 -/

theorem test_P1 : rejects [] (.shortFrame 0) = true := by decide +kernel
theorem test_P3 : refuses (exec (.command (0xE0 :: List.replicate 20 0)) base) .frameTooLong = true := by decide +kernel
theorem test_P4 : rejects [0x00] (.unknownClass 0) = true := by decide +kernel
theorem test_P6 : rejects [0x40] (.shortFrame 1) = true := by decide +kernel
theorem test_P7 : rejects [0x3F, 0x00] (.unknownSub 31) = true := by decide +kernel
theorem test_P9 : rejects [0x43, 0x00] (.shortFrame 2) = true := by decide +kernel

/-! ## Display: D1 to D8, L3.1 -/

theorem test_D1 : emits [0x20, 0x0A, 0x48, 0x69] [.stopAnimation, .scrollText [0x48, 0x69] 100] = true := by
  decide +kernel
theorem test_D3 : emits [0x20, 0xFF, 0x41, 0x00, 0x42] [.stopAnimation, .scrollText [0x41] 2550] = true := by
  decide +kernel
theorem test_D6 : rejects (0x21 :: List.replicate 14 1) (.shortFrame 15) = true := by decide +kernel
theorem test_D7 : holds (exec (.displayPixels0 #v[1, 2, 3, 4, 5, 6, 7, 8, 9, 10, 11, 12, 13, 14, 15]) base) (fun t =>
    t.blk.grid = #v[#v[1, 2, 3, 4, 5], #v[6, 7, 8, 9, 10], #v[11, 12, 13, 14, 15], #v[0, 0, 0, 0, 0], #v[0, 0, 0, 0, 0]] &&
      t.last.trace = []) = true := by decide +kernel
theorem test_D8 : holds (exec (.displayPixels1 #v[16, 17, 18, 19, 20, 21, 22, 23, 24, 25]) base) (fun t =>
    emitted t = [.stopAnimation, .flush #v[#v[0, 0, 0, 0, 0], #v[0, 0, 0, 0, 0], #v[0, 0, 0, 0, 0], #v[16, 17, 18, 19, 20],
      #v[21, 22, 23, 24, 25]]] && setPixels (.flush t.blk.grid) = t.pixelsSet) = true := by decide +kernel

/-! ## PIN forms: N1 to N13 -/

theorem test_N1 : holds (exec (.command [0x40, 0x00, 0x01]) base) (fun t => t.pullOf 0 = .up && t.pullOf 1 = .none &&
    emitted t = [.setPull 0 .up]) = true := by decide +kernel
theorem test_N3b : rejects [0x40, 0x15, 0x07] (.badPin 21) = true := by decide +kernel
theorem test_N4 : emits [0x41, 0x01] [.enableTouch 1] = true := by decide +kernel
theorem test_N5 : emits [0x42, 0x02, 0x05] [.setDigitalValue 2 5] = true := by decide +kernel
theorem test_N6c : emits [0x43, 0x00, 0x00, 0x04] [.setAnalogValue 0 1023] = true := by decide +kernel
theorem test_N6d : emits [0x43, 0x00, 0x00, 0x02] [.setAnalogValue 0 512] = true := by decide +kernel
theorem test_N7b : emits [0x44, 0x00, 0x5A, 0x00, 0xEE, 0x00, 0x00, 0x10, 0x00] [.setServoAngle 0 90] = true := by
  decide +kernel
theorem test_N7e : emits [0x44, 0x00, 0x00, 0x00, 0x00, 0x01, 0x00, 0x01, 0x00] [.setServoCenter 0 0 1 1] = true := by
  decide +kernel
theorem test_N8 : holds (exec (.command [0x45, 0x08, 0x01]) base) (fun t => t.subOf 8 = { en := true, kind := .edge } &&
    subscriptionCount t = 1 &&
    emitted t = [.subscribe 108 .pinHandler .dropIfBusy, .enableEdgeDetection 8 (some .edge)]) = true := by decide +kernel
theorem test_L3_4 : ends base (fun t => t.subOf 12 = { en := false, kind := .pulse } && subscriptionCount t = 0 &&
    emitted t = [.unsubscribe 112 .pinHandler, .enableEdgeDetection 12 none])
    [.command [0x45, 0x0C, 0x02], .command [0x45, 0x03, 0x01], .command [0x45, 0x0C, 0x00]] = true := by decide +kernel

/-! ## Shared registers: S1 to S9 -/

theorem test_S4 : holds (exec (.command [0x60, 0x03, 0x00, 0x80]) base) (fun t => t.blk.sreg[3].toInt = -32768 &&
    t.last.trace = []) = true := by decide +kernel
theorem test_S2 : rejects [0x60, 0x04, 0x01, 0x00] (.badIndex 4) = true := by decide +kernel
theorem test_S6 : ends base (fun t => t.blk.sreg = #v[4464, 0x8000, 0x7FFF, 0xFFFF])
    [.sharedSet 0 70000, .sharedSet 1 32768, .sharedSet 2 (-32769), .sharedSet 3 65535] = true := by decide +kernel
theorem test_S7 : holds (exec (.sharedSet (-1) 1) base) (fun t => t.last.noop = some (.badIndex (-1)) &&
    t.blk = base.blk) = true := by decide +kernel
theorem test_S8 : holds (exec (.sharedGet 7) base) (fun t => t.last.result = .int 0) = true := by decide +kernel
theorem test_S9 : ends base (fun t => t.last.result = .int (-100)) [.command [0x60, 0x02, 0x9C, 0xFF], .sharedGet 2] =
    true := by decide +kernel

/-! ## Events: E1 to E8 -/

theorem test_E1 : holds (exec (.pinEventIn 108 2 0x100000005) base) (fun t =>
    t.nbufOf .evt = [8, 2, 5, 0, 0, 0, 0, 0, 0, 0, 0, 0, 0, 0, 0, 0, 0, 0, 0, 0x11] && emitted t = [.notify .event]) =
    true := by decide +kernel
theorem test_E2 : holds (exec (.pinEventIn 999 1 0) base) (fun t => t.last.noop = some (.unknownComponent 999) &&
    t.blk = base.blk && t.last.trace = []) = true := by decide +kernel
theorem test_E6 : holds (exec (.buttonEventIn 300 7 0) base) (fun t =>
    t.nbufOf .evt = [1, 0x2C, 7, 0, 0, 0, 0, 0, 0, 0, 0, 0, 0, 0, 0, 0, 0, 0, 0, 0x12]) = true := by decide +kernel
theorem test_E4_E7 : ends base (fun t =>
    t.nbufOf .evt = [2, 0x0B, 7, 0, 0, 0, 0xAA, 0, 0, 0, 0, 0, 0, 0, 0, 0, 0, 0, 0, 0x12])
    [.buttonEventIn 1 1 0xAABBCCDD, .gestureEventIn 11 7] = true := by decide +kernel

/-! ## Median: L1, M1 to M9 -/

/-- The value MEDIAN returns. -/
def medianIs (v : List Int) (m : Int) : Bool := holds (exec (.median v) base) fun t => t.last.result = .int m

theorem test_L1_2 : medianIs [4, 1, 3, 2] 2 = true := by decide +kernel
theorem test_M5_M6 : (medianIs [2, 2, 9] 2 && medianIs [9, 2, 2] 2 && medianIs [2, 9, 2] 2) = true := by decide +kernel

/-! ## Telemetry: T1 to T17 -/

/-- The host has lined up: pins 0 and 16 digital inputs at 1, other pins no inputs, buttons at 1 (T2); light 40, temperature
21 (T1); the orientation answers of T6; pin 1 an input with the samples of T13. -/
def answers : Replies where
  bools := (Cfg.bindingT.gpioSet.filter (· ≠ 1)).flatMap (fun p => [(.isInput p, p = 0 || p = 16), (.isDigital p, true)]) ++
    [(.isInput 1, true), (.isDigital 1, false)]
  ints := (([0, 1, 2, 8, 12, 13, 14, 15, 16, 5, 11] : List Pin).map fun p => (.getDigitalValue p, 1)) ++
    [(.getTemperature, 21), (.getAccelX, 100), (.getAccelY, -200), (.getAccelZ, 980), (.getCompassHeading, 170),
      (.getCompassX, 12345), (.getCompassY, -6789), (.getCompassZ, 0)]
  analogs := [512, 498, 1023, 505, 0].map fun w => (.getAnalogValue 1, w)
  lights := [(.readLightLevel, 40)]
  reals := [(.getPitchRadians, .exact (1 / 2) 0), (.getRollRadians, .exact (-1 / 4) 0)]

/-- Reset with answers lined up, the light channel of T1 and the pull mode of T13. -/
def wired : State := { (base.setLight [10, 200, 30] 1).setPull 1 .up with replies := answers }

theorem test_T2 : (digitalMask wired).1 = 0x10821 := by decide +kernel
theorem test_T1 : holds (exec (.sampleEnv [0, 0, 0, 0, 0, 0, 0x77]) wired) (fun t =>
    t.last.result = .buffer [0x21, 0x08, 0x01, 0x00, 0x1E, 0x95, 0x77] && t.blk.lring = [10, 40, 30] && t.blk.lidx = 2) =
    true := by decide +kernel
theorem test_T6 : holds (exec (.sampleOrient (List.replicate 18 0)) wired) (fun t => t.last.result =
    .buffer [0xF4, 0x01, 0x06, 0xFF, 0x9C, 0xFF, 0x38, 0xFF, 0x2C, 0xFC, 0x0A, 0x00, 0x0C, 0x00, 0xFA, 0xFF, 0x00, 0x00]) =
    true := by decide +kernel
theorem test_T13 : holds (exec (.sampleAnalog [0, 0] 1) wired) (fun t => t.last.result = .buffer [0xF9, 0x01] &&
    emitted t = [.setPull 1 .none, .setPull 1 .up] && t.last.trace.length = 8 &&
    t.aringOf 1 = [512, 498, 1023, 505, 0]) = true := by decide +kernel
theorem test_T15 : holds (exec (.sampleAnalog [0, 0] 8) wired) (fun t => t.last = noopReport [] (.notAnalogPin 8)) =
    true := by decide +kernel

/-- The value HNORM returns. -/
def hnormIs (h : Int) (facedown : Bool) (r : Int) : Bool :=
  holds (exec (.hnorm h facedown) base) fun t => t.last.result = .int r

theorem test_T11 : (hnormIs 180 true 0 && hnormIs 0 true 180 && hnormIs 181 true 359 && hnormIs 359 true 181 &&
    hnormIs 90 false 90 && hnormIs 359 false 359) = true := by decide +kernel

/-- The value TILT returns for the angle `k·π`. -/
def tiltIs (k : Rat) (r : Int) : Bool :=
  holds (exec (.tilt (.exact 0 k)) base) fun t => t.last.result = .int r

theorem test_T12 : (tiltIs 0 0 && tiltIs (1 / 4) 500 && tiltIs (1 / 3) 666 && tiltIs (1 / 2) 1000 && tiltIs (3 / 4) 500 &&
    tiltIs (2 / 3) 666 && tiltIs 1 0 && tiltIs (-1 / 2) (-1000) && tiltIs (-2 / 3) (-666) && tiltIs 2 (-2000)) = true := by
  decide +kernel
theorem test_tilt_one_radian : holds (exec (.tilt (.exact 1 0)) base) (fun t => t.last.result = .int 636) =
    true := by decide +kernel

theorem test_tilt_any_real : holds (exec (.tilt (.named 0)) base) (fun t => t.last.trace = [] && t.last.noop = none &&
    t.last.result ≠ .nothing) = true := by decide +kernel

theorem test_R1 : ends wired (fun t => t.blk = base.blk && t.last = doneReport [] .nothing && t.replies = answers)
    [.sharedSet 1 7, .pinEventIn 100 1 1, .reset] = true := by decide +kernel

/-! ## Well-formedness: each check refuses an ill-formed term -/

theorem test_wf_text : Instr.wellFormed (.displayText 0 (List.replicate 19 0x41)) = false := by decide
theorem test_wf_frame : Instr.wellFormed (.command (List.replicate 21 0)) = false := by decide
theorem test_wf_env : Instr.wellFormed (.sampleEnv (List.replicate 5 0)) = false := by decide
theorem test_wf_orient : Instr.wellFormed (.sampleOrient (List.replicate 17 0)) = false := by decide
theorem test_wf_analog : Instr.wellFormed (.sampleAnalog [0] 1) = false := by decide
theorem test_wf_median_empty : Instr.wellFormed (.median []) = false := by decide
theorem test_wf_median_negative : Instr.wellFormed (.median [1, -1]) = false := by decide

/-- The four inputs outside the contract are refused by name: P2, T5, M7, M8. -/
theorem test_refusals : (refuses (exec (.command (List.replicate 21 0)) base) .frameTooLong &&
    refuses (exec (.sampleEnv (List.replicate 5 0)) base) .bufferTooShort &&
    refuses (exec (.sampleOrient (List.replicate 17 0)) base) .bufferTooShort &&
    refuses (exec (.sampleAnalog [0] 8) base) .bufferTooShort &&
    refuses (exec (.median []) base) .emptyInput && refuses (exec (.median [-1, 2]) base) .negativeSample) = true := by
  decide +kernel

/-! ## The configuration: T is legal, and breaking any constraint of R5 is seen -/

theorem test_bindingT_legal : Cfg.bindingT.legal = true := by decide +kernel
theorem test_cfg_classes : ({ Cfg.bindingT with clsShared := 1 } : Cfg).legal = false := by decide +kernel
theorem test_cfg_subs : ({ Cfg.bindingT with subPixels1 := 1 } : Cfg).legal = false := by decide +kernel
theorem test_cfg_pin_subs : ({ Cfg.bindingT with subSetEvent := 0 } : Cfg).legal = false := by decide +kernel
theorem test_cfg_event_pin : ({ Cfg.bindingT with identifierTable := [(21, 1)] } : Cfg).legal = false := by decide +kernel
theorem test_cfg_component : ({ Cfg.bindingT with identifierTable := [(1, 1), (2, 1)] } : Cfg).legal = false := by
  decide +kernel
theorem test_cfg_analog : ({ Cfg.bindingT with analogPins := [21] } : Cfg).legal = false := by decide +kernel
theorem test_cfg_gpio : (({ Cfg.bindingT with gpioSet := [5] } : Cfg).legal ||
    ({ Cfg.bindingT with gpioSet := [32] } : Cfg).legal) = false := by decide +kernel
theorem test_cfg_pull : (({ Cfg.bindingT with pullDecode := [(0, .none), (1, .up)] } : Cfg).legal ||
    ({ Cfg.bindingT with pullDecode := [(0, .none), (1, .up), (2, .up)] } : Cfg).legal) = false := by decide +kernel
theorem test_cfg_codes : (({ Cfg.bindingT with evtTouch := 0 } : Cfg).legal ||
    ({ Cfg.bindingT with dfActionEvent := 0x11 } : Cfg).legal || ({ Cfg.bindingT with actGesture := 1 } : Cfg).legal ||
    ({ Cfg.bindingT with buttonBId := 1 } : Cfg).legal ||
    ({ Cfg.bindingT with gestureMap := .table [(1, 1), (1, 2)] } : Cfg).legal) = false := by decide +kernel
theorem test_cfg_counts : (({ Cfg.bindingT with frameMax := 21 } : Cfg).legal ||
    ({ Cfg.bindingT with notifyLen := 19 } : Cfg).legal || ({ Cfg.bindingT with nAnalog := 0 } : Cfg).legal ||
    ({ Cfg.bindingT with nLight := 0 } : Cfg).legal) = false := by decide +kernel
theorem test_cfg_refused : refuses (exec .reset (State.resetWith { Cfg.bindingT with nLight := 0 })) .illegalConfiguration =
    true := by decide +kernel

/-! ## Witnesses: each statement with hypotheses has a concrete state and operands that meet them, clause by clause -/

/-- Separate event buffers and a mapped gesture. -/
def split : State := State.resetWith { Cfg.bindingT with eventBuffers := .separate, gestureMap := .table [(11, 200)] }

/-- A configuration with a P_ROUND and a gesture map of which nothing is known. -/
def otherRound : State := State.resetWith { Cfg.bindingT with round := .named 0, gestureMap := .named 0 }

theorem base_legal : base.cfg.legal = true := by decide +kernel
theorem split_legal : split.cfg.legal = true := by decide +kernel
theorem otherRound_legal : otherRound.cfg.legal = true := by decide +kernel
theorem wired_legal : wired.cfg.legal = true := by decide +kernel
theorem base_inv : base.Inv := by decide +kernel
theorem split_inv : split.Inv := by decide +kernel
theorem wired_inv : wired.Inv := by decide +kernel

theorem witness_OperandFieldsAreAssembledFromBytes : ([0x12, 0xFF] : List Byte)[1]? = some 0xFF ∧
    (u16leAt [0xFF, 0x7F] 0).toNat = 32767 ∧ (u16leAt [0x00, 0x80] 0).toNat = 32768 ∧
    decodeFrame base.cfg [0x43, 0x07, 0x34, 0x12] = .form (.pinSetPwm 7 0x1234) ∧ base.cfg.legal = true := by
  decide +kernel
theorem witness_WrittenFieldsAreLittleEndian : 0 + 1 < ([0, 0] : List Byte).length ∧
    0 + 3 < ([0, 0, 0, 0] : List Byte).length := by decide
theorem witness_DecodeOfEncodeGivesTheForm : base.cfg.legal = true ∧
    ([.displayText 255 (List.replicate 18 0xFF), .displayText 0 [], .displayPixels0 (Vector.replicate 15 0xFF),
      .displayPixels1 (Vector.replicate 10 0xFF), .pinSetPull 255 255, .pinSetTouch 255, .pinSetOutput 255 255,
      .pinSetPwm 255 0xFFFF, .pinSetServo 255 0xFFFF 0xFFFF 0xFFFF, .pinSetEvent 255 255, .sharedData 255 0xFFFF] :
      List Instr).all (fun i => i.isForm && i.wellFormed) = true := by decide +kernel
theorem witness_DecodedFormsAreWellFormed : base.cfg.legal = true ∧
    decodeFrame base.cfg [0x20, 0x00] = .form (.displayText 0 []) ∧
    decodeFrame base.cfg (0x20 :: 0x01 :: List.replicate 18 0x41) = .form (.displayText 1 (List.replicate 18 0x41)) := by
  decide +kernel
theorem witness_UnnamedBytesNeverChangeDecoding : base.cfg.legal = true ∧
    decodeFrame base.cfg [0x41, 0x01] = .form (.pinSetTouch 1) ∧
    (∀ d t, Instr.pinSetTouch 1 ≠ .displayText d t) ∧ ([0x41, 0x01] ++ List.replicate 18 (0 : Byte)).length ≤ 20 ∧
    decodeFrame base.cfg [0x44, 0, 90, 0, 0, 180, 0, 16, 1] = .form (.pinSetServo 0 90 180 272) :=
  ⟨by decide +kernel, by decide +kernel, by simp, by decide, by decide +kernel⟩

/-- Reset with one frame waiting. -/
def waiting (f : List Byte) : State := { base with port := [.command f] }

theorem witness_StepRunsTheNextOperation : (waiting []).port = .command [] :: [] ∧
    (waiting [0x41, 0x01]).port = .command [0x41, 0x01] :: [] ∧ (waiting [0x41, 0x01]).cfg.legal = true ∧
    decodeFrame (waiting [0x41, 0x01]).cfg [0x41, 0x01] = .form (.pinSetTouch 1) ∧ base.port = [] := by decide +kernel
theorem witness_CommandRunsTheDecodedForm : base.cfg.legal = true ∧
    decodeFrame base.cfg [0x41, 0x01] = .form (.pinSetTouch 1) := by decide +kernel
theorem witness_CommandRejectsInTheWrittenOrder : base.cfg.legal = true ∧ 20 < (List.replicate 21 (0 : Byte)).length ∧
    ([0x00] : List Byte) = header 0 0 :: [] ∧ (0 : BitVec 3) ≠ base.cfg.clsDisplay ∧ (0 : BitVec 3) ≠ base.cfg.clsPin ∧
    (0 : BitVec 3) ≠ base.cfg.clsShared ∧ header base.cfg.clsDisplay 3 = 0x23 ∧
    (3 : BitVec 5) ∉ [base.cfg.subText, base.cfg.subPixels0, base.cfg.subPixels1] ∧ header base.cfg.clsPin 6 = 0x46 ∧
    (6 : BitVec 5) ∉ [base.cfg.subSetPull, base.cfg.subSetTouch, base.cfg.subSetOutput, base.cfg.subSetPwm,
      base.cfg.subSetServo, base.cfg.subSetEvent] ∧
    selectForm base.cfg base.cfg.clsPin base.cfg.subSetServo = .ok .setServo ∧
    (header base.cfg.clsPin base.cfg.subSetServo :: List.replicate 7 (0 : Byte)).length < minLength .setServo := by
  decide +kernel
theorem witness_CommandNeverSurfacesAnError : base.cfg.legal = true ∧ (List.replicate 20 (0xFF : Byte)).length ≤ 20 ∧
    ∃ t, exec (.command (List.replicate 20 0xFF)) base = .next t ∧ t.last.noop = some (.unknownClass 7) := by
  refine ⟨by decide +kernel, by decide, ?_⟩
  obtain ⟨t, h, ht⟩ := exists_of_holds (o := exec (.command (List.replicate 20 0xFF)) base)
    (P := fun t => t.last.noop = some (.unknownClass 7)) (by decide +kernel)
  exact ⟨t, h, by simpa using ht⟩
theorem witness_TextStopsTheAnimationThenScrolls : base.cfg.legal = true ∧ (0 : Byte) ∉ [0x41, 0x42] ∧ (0 : Byte) ∉ [] ∧
    ∃ tail : List Byte, ([0, 0x43] : List Byte) = 0 :: tail := ⟨by decide +kernel, by decide, by decide, [0x43], rfl⟩
theorem witness_Pixels0WritesRowsZeroToTwo : base.cfg.legal = true ∧
    0x21 :: List.replicate 14 (1 : Byte) = header base.cfg.clsDisplay base.cfg.subPixels0 :: List.replicate 14 1 ∧
    (0x21 :: List.replicate 14 (1 : Byte)).length < 16 ∧ 16 ≤ (0x21 :: List.replicate 15 (1 : Byte)).length ∧
    (0x21 :: List.replicate 19 (1 : Byte)).length ≤ 20 := by decide +kernel
theorem witness_Pixels1WritesRowsThenFlushesTheGrid : base.cfg.legal = true := base_legal
theorem witness_TwoPixelFramesFlushTheCombinedGrid : base.cfg.legal = true := base_legal
theorem witness_SetPullPersistsAndRequestsTheMode : base.cfg.legal = true ∧ (0 : Pin) ∈ base.cfg.validPins ∧
    (20 : Pin) ∈ base.cfg.validPins ∧ ((2 : Byte), PullMode.down) ∈ base.cfg.pullDecode ∧
    ((3 : Byte), PullMode.none) ∉ base.cfg.pullDecode ∧ ((3 : Byte), PullMode.up) ∉ base.cfg.pullDecode ∧
    ((3 : Byte), PullMode.down) ∉ base.cfg.pullDecode := by decide +kernel
theorem witness_SetTouchEmitsEnableTouchOnly : base.cfg.legal = true ∧ (20 : Pin) ∈ base.cfg.validPins ∧
    (21 : Pin) ∉ base.cfg.validPins ∧ (List.replicate 18 (0 : Byte)).length ≤ 18 := by decide +kernel
theorem witness_SetOutputPassesTheByteUnchanged : base.cfg.legal = true ∧ (20 : Pin) ∈ base.cfg.validPins := by
  decide +kernel
theorem witness_SetPwmClampsTheDuty : base.cfg.legal = true ∧ (20 : Pin) ∈ base.cfg.validPins ∧
    base.cfg.analogMax.toNat = 1023 := by decide +kernel
theorem witness_SetServoSelectsTheOverloadByZero : base.cfg.legal = true ∧ (20 : Pin) ∈ base.cfg.validPins ∧
    (1 : Word16) ≠ 0 := by decide +kernel
theorem witness_PinFormsRejectUnacceptedPinsFirst : base.cfg.legal = true ∧ (21 : Pin) ∉ base.cfg.validPins ∧
    (3 : Pin) ∉ base.cfg.eventPins := by decide +kernel
theorem witness_SetEventSubscribes : base.cfg.legal = true ∧ ((16 : Pin), (116 : Int)) ∈ base.cfg.identifierTable ∧
    ((3 : Byte), EventKind.touch) ∈ [(base.cfg.evtEdge, EventKind.edge), (base.cfg.evtPulse, .pulse), (base.cfg.evtTouch, .touch)] := by
  decide +kernel
theorem witness_SetEventUnsubscribes : base.cfg.legal = true ∧ ((0 : Pin), (100 : Int)) ∈ base.cfg.identifierTable ∧
    (4 : Byte) ∉ [base.cfg.evtNone, base.cfg.evtEdge, base.cfg.evtPulse, base.cfg.evtTouch] := by decide +kernel

/-- Reset with pin 8 subscribed. -/
def subscribed : State := base.setSub 8 { en := true, kind := .pulse }

theorem witness_SubscriptionCountFollowsSetEvent : subscribed.cfg.legal = true ∧ (8 : Pin) ∈ subscribed.cfg.eventPins ∧
    (subscribed.subOf 8).en = true ∧ (3 : Pin) ∉ subscribed.cfg.eventPins ∧
    holds (exec (.pinSetEvent 8 9) subscribed) (fun t => t.last.noop ≠ none) = true := by decide +kernel
theorem witness_SharedDataWritesTheIndexedRegister : base.cfg.legal = true ∧ (3 : Byte).toNat < 4 ∧ 3 < (4 : Byte).toNat ∧
    ([0x75, 0x00, 0x07] : List Byte) = header base.cfg.clsShared 21 :: [0x00, 0x07] ∧
    ([0x75, 0x00, 0x07] : List Byte).length < 4 ∧ ([0x00, 0x07, 0x80] : List Byte) = 0x00 :: 0x07 :: 0x80 :: [] := by
  decide +kernel
theorem witness_SharedSetTruncatesTheValue : base.cfg.legal = true ∧ (3 : Int) = ((3 : Fin 4).val : Int) ∧
    ((-1 : Int) < 0 ∨ (3 : Int) < -1) ∧ ((4 : Int) < 0 ∨ (3 : Int) < 4) := by decide +kernel
theorem witness_SharedGetReturnsTheRegisterOrZero : base.cfg.legal = true ∧ (0 : Int) = ((0 : Fin 4).val : Int) ∧
    ((-1 : Int) < 0 ∨ (3 : Int) < -1) ∧ ((4 : Int) < 0 ∨ (3 : Int) < 4) := by decide +kernel
theorem witness_MedianIsTheMiddleOfTheSortedValues : base.cfg.legal = true ∧ ([3, 1, 2] : List Int) ≠ [] ∧
    (∀ v ∈ ([3, 1, 2] : List Int), 0 ≤ v) ∧ ([1, 2, 3] : List Int).Perm [3, 1, 2] ∧ ([1, 2, 3] : List Int).Pairwise (· ≤ ·) ∧
    ([3, 1, 2] : List Int).length = 2 * 1 + 1 ∧ ([4, 1] : List Int).length = 2 * 0 + 2 ∧
    ([1, 4] : List Int).Perm [4, 1] ∧ ([1, 4] : List Int)[0]? = some 1 ∧ ([1, 4] : List Int)[0 + 1]? = some 4 := by
  decide +kernel
theorem witness_AnalogFillResamplesEverySlot : ∃ t, exec (.sharedSet 0 1) base = .next t :=
  (exists_of_holds (P := fun _ => true) (by decide +kernel)).imp fun _ h => h.1
theorem witness_MedianChannelsAreIndependent : ([3, 1] : List Int).Perm [1, 3] ∧ base.cfg.legal = true ∧
    split.cfg.legal = true ∧ holds (exec (.median [3, 1]) base) (fun _ => true) = true := by decide +kernel
theorem witness_DigitalMaskHasOneBitPerPin : wired.cfg.legal = true ∧
    (∀ p ∈ wired.cfg.gpioSet, mapFind? (.isInput p) wired.replies.bools = some (p == 0 || p == 1 || p == 16) ∧
      mapFind? (.isDigital p) wired.replies.bools = some (p != 1)) ∧
    (∀ p : Pin, p ∈ wired.cfg.gpioSet ∨ p = 5 ∨ p = 11 →
      mapFind? (.getDigitalValue p) wired.replies.ints = some 1) := by decide +kernel
theorem witness_SampleEnvWritesSixBytesAndPushesLight : wired.cfg.legal = true ∧ wired.Inv ∧
    6 ≤ (List.replicate 6 (0 : Byte)).length := ⟨wired_legal, wired_inv, by decide⟩
theorem witness_SampleOrientWritesNineFields : wired.cfg.legal = true ∧ 18 ≤ (List.replicate 18 (0 : Byte)).length ∧
    wired.cfg.round = .towardZero := by decide +kernel
theorem witness_SampleAnalogRefillsTheRingAndRestoresPull : wired.cfg.legal = true ∧ (1 : Pin) ∈ wired.cfg.analogPins ∧
    2 ≤ ([0, 0] : List Byte).length ∧ mapFind? (.isInput 1) wired.replies.bools = some true := by decide +kernel
theorem witness_SampleAnalogOnOtherPinsIsSilent : wired.cfg.legal = true ∧ 2 ≤ ([0, 0] : List Byte).length ∧
    (8 : Pin) ∉ wired.cfg.analogPins ∧ (2 : Pin) ∈ wired.cfg.analogPins ∧
    mapFind? (.isInput 2) wired.replies.bools = some false := by decide +kernel
theorem witness_HeadingNormReflectsFaceDown : base.cfg.legal = true ∧ (180 : Int) ≤ 180 ∧ (180 : Int) < 181 ∧
    (0 : Int) ≤ 359 ∧ (181 : Int) ≤ 359 := by decide +kernel
theorem witness_TiltIsTheFoldedRealFormula : base.cfg.legal = true ∧ base.cfg.round = .towardZero ∧
    otherRound.cfg.legal = true ∧ otherRound.cfg.round = .named 0 := by decide +kernel

/-- The angle `k·π`. -/
def piTimes (k : Rat) : RealNum := .exact 0 k

theorem witness_TiltStaysInRangeByReflection : base.cfg.legal = true ∧ base.cfg.round = .towardZero ∧
    (∀ k r, (k, r) ∈ [((1 / 2 : Rat), (1000 : Int)), (-1 / 2, -1000), (2 / 3, 666), (-2 / 3, -666), (3 / 2, -1000)] →
      ∃ t, exec (.tilt (piTimes k)) base = .next t ∧ t.last.result = .int r) ∧
    |angleReal (piTimes (3 / 2))| ≤ 3 * Real.pi / 2 ∧ Real.pi / 2 < angleReal (piTimes (2 / 3)) ∧
    angleReal (piTimes (-2 / 3)) < -(Real.pi / 2) ∧ angleReal (piTimes (1 / 2)) = Real.pi / 2 ∧
    angleReal (piTimes (-1 / 2)) = -(Real.pi / 2) := by
  have hpi := Real.pi_pos
  refine ⟨by decide +kernel, by decide +kernel, ?_, ?_, ?_, ?_, ?_, ?_⟩
  · have h : ([((1 / 2 : Rat), (1000 : Int)), (-1 / 2, -1000), (2 / 3, 666), (-2 / 3, -666), (3 / 2, -1000)].all fun e =>
        holds (exec (.tilt (piTimes e.1)) base) fun t => t.last.result = .int e.2) = true := by decide +kernel
    intro k r hm
    obtain ⟨t, ht, hr⟩ := exists_of_holds (List.all_eq_true.mp h (k, r) hm)
    exact ⟨t, ht, by simpa using hr⟩
  all_goals simp only [angleReal, piTimes]
  · push_cast; rw [abs_of_pos (by positivity)]; linarith
  all_goals push_cast; linarith

theorem witness_PinEventWritesItsFrame : base.cfg.legal = true ∧ base.Inv ∧ split.cfg.legal = true ∧ split.Inv ∧
    base.cfg.eventBuffers = .shared ∧ split.cfg.eventBuffers = .separate ∧
    ((16 : Pin), (116 : Int)) ∈ base.cfg.identifierTable ∧ (999 : Int) ∉ base.cfg.identifierTable.map Prod.snd := by
  decide +kernel
theorem witness_ButtonEventWritesItsFrame : base.cfg.legal = true ∧ base.Inv ∧ split.cfg.legal = true ∧ split.Inv ∧
    base.cfg.buttonAId = 1 ∧ base.cfg.buttonBId = 2 ∧ (300 : Int) ≠ base.cfg.buttonAId ∧ (300 : Int) ≠ base.cfg.buttonBId ∧
    base.cfg.buttonEventMap = .table [(1, 1), (2, 2)] ∧ mapsTo base.cfg.buttonEventMap 2 2 ∧
    ∀ e, ¬ mapsTo base.cfg.buttonEventMap 9 e :=
  ⟨by decide +kernel, by decide +kernel, by decide +kernel, by decide +kernel, by decide +kernel, by decide +kernel,
    by decide +kernel, by decide +kernel, rfl, by simp [mapsTo, base, State.reset, State.resetWith, Cfg.bindingT],
    by simp [mapsTo, base, State.reset, State.resetWith, Cfg.bindingT]⟩
theorem witness_GestureEventWritesItsFrame : base.cfg.legal = true ∧ base.Inv ∧ split.cfg.legal = true ∧ split.Inv ∧
    split.cfg.gestureMap = .table [(11, 200)] ∧ mapsTo split.cfg.gestureMap 11 200 ∧
    ∀ g, ¬ mapsTo base.cfg.gestureMap 11 g :=
  ⟨by decide +kernel, by decide +kernel, by decide +kernel, by decide +kernel, rfl,
    by simp [mapsTo, split, State.resetWith], by simp [mapsTo, base, State.reset, State.resetWith, Cfg.bindingT]⟩
theorem witness_DiscriminatorIsWrittenLast :
    ([.pinEventIn 100 1 0, .buttonEventIn 1 1 0, .gestureEventIn 1 0] : List Instr).all (fun i =>
      holds (exec i base) fun t => t.last.bufWrites ≠ []) = true := by decide +kernel
theorem witness_UnnamedBufferBytesAreKept :
    (holds (exec (.buttonEventIn 1 1 0) base) fun t => t.last.bufWrites.all fun w => ¬ (w.1 = .evt ∧ w.2.1 = 7)) = true ∧
    (Instr.buttonEventIn 1 1 0 ≠ .reset) ∧
    (holds (exec (.sampleEnv (List.replicate 7 1)) wired) fun t => t.last.result ≠ .nothing) = true ∧
    (holds (exec (.sampleOrient (List.replicate 19 1)) wired) fun t => t.last.result ≠ .nothing) = true ∧
    (holds (exec (.sampleAnalog [1, 1, 1] 1) wired) fun t => t.last.result ≠ .nothing) = true := by decide +kernel
theorem witness_ResetRestoresEveryField : wired.cfg.legal = true := wired_legal
theorem witness_InvariantHoldsAtReset : Cfg.bindingT.legal = true := test_bindingT_legal
theorem witness_EveryStepKeepsTheInvariant : (waiting [0x40, 0x01, 0x02]).Inv ∧
    holds (step (waiting [0x40, 0x01, 0x02])) (fun t => t.blk ≠ base.blk) = true := by decide +kernel
theorem witness_ConfigurationIsNeverWritten : holds (exec (.sharedSet 0 1) base) (fun _ => true) = true ∧
    holds (step (waiting [0x40, 0x01, 0x02])) (fun _ => true) = true := by decide +kernel
theorem witness_ExactlyContractInputsComplete : base.cfg.legal = true ∧
    Instr.wellFormed (.command (List.replicate 20 0)) = true ∧ Instr.wellFormed (.sampleEnv (List.replicate 6 0)) = true ∧
    Instr.wellFormed (.sampleOrient (List.replicate 18 0)) = true ∧ Instr.wellFormed (.sampleAnalog [0, 0] 1) = true ∧
    Instr.wellFormed (.median [0]) = true ∧ ({ Cfg.bindingT with nLight := 0 } : Cfg).legal = false ∧
    20 < (List.replicate 21 (0 : Byte)).length ∧ (List.replicate 5 (0 : Byte)).length < 6 ∧
    (List.replicate 17 (0 : Byte)).length < 18 ∧ ([0] : List Byte).length < 2 ∧ ((-1 : Int) ∈ [0, -1] ∧ (-1 : Int) < 0) := by
  decide +kernel
theorem witness_NoopsHaveNoEffect : holds (exec (.sampleAnalog [0, 0] 2) wired) (fun t => t.last.noop ≠ none &&
    t.last.trace.length = 1) = true := by decide +kernel
theorem witness_EachFieldHasItsOwnWriters :
    ([(.command [0x40, 1, 2], .pinSetPull 1 2), (.displayPixels0 (Vector.replicate 15 1), .displayPixels0 (Vector.replicate 15 1)),
      (.sharedSet 0 1, .sharedSet 0 1), (.sampleAnalog [0, 0] 1, .sampleAnalog [0, 0] 1),
      (.sampleEnv (List.replicate 6 0), .sampleEnv (List.replicate 6 0)), (.pinSetEvent 8 1, .pinSetEvent 8 1),
      (.gestureEventIn 1 0, .gestureEventIn 1 0)] : List (Instr × Instr)).all (fun e =>
        effective wired.cfg e.1 = some e.2 && e.2 ≠ .reset && holds (exec e.1 wired) fun t => t.blk ≠ wired.blk) = true := by
  decide +kernel
theorem witness_OnlyPixels1Flushes : holds (exec (.command (0x22 :: List.replicate 10 7)) base) (fun t =>
    t.last.trace.any fun x => x = .emit (.flush t.blk.grid)) = true := by decide +kernel
theorem witness_RequestsHaveTheirOwnEmitters :
    ([.gestureEventIn 1 0, .pinSetEvent 8 1, .pinSetEvent 8 0, .pinSetPull 1 1, .sampleAnalog [0, 0] 1] : List Instr).all
      (fun i => effective wired.cfg i = some i && holds (exec i wired) fun t => emitted t ≠ []) = true := by
  decide +kernel
theorem witness_OnlyTelemetryAsks : holds (exec (.pinSetEvent 8 1) wired) (fun t => t.last.trace ≠ []) = true := by
  decide +kernel
theorem witness_LinedUpAnswersAreUsedOnce :
    mapFind? (.getAccelZ) wired.replies.ints = some 980 ∧
    wired.replies.ints = wired.replies.ints.take 14 ++ (.getAccelZ, 980) :: wired.replies.ints.drop 15 ∧
    IntQuery.getAccelZ ∉ (wired.replies.ints.take 14).map Prod.fst ∧
    RealQuery.getPitchRadians ∉ base.replies.reals.map Prod.fst ∧ IntQuery.getTemperature ≠ .getAccelZ ∧
    mapFind? (.isDigital 1) wired.replies.bools = some false ∧ mapFind? (.getAnalogValue 1) wired.replies.analogs = some 512 ∧
    mapFind? .readLightLevel wired.replies.lights = some 40 ∧
    mapFind? .getRollRadians wired.replies.reals = some (.exact (-1 / 4) 0) := by decide +kernel
theorem witness_FlushSetsEveryCellAtColumnAndRow : base.cfg.legal = true ∧
    holds (exec (.displayPixels1 #v[16, 17, 18, 19, 20, 21, 22, 23, 24, 25]) base) (fun t =>
      { x := 0, y := 3, brightness := 16 } ∈ t.pixelsSet ∧ { x := 4, y := 4, brightness := 25 } ∈ t.pixelsSet ∧
      { x := 4, y := 2, brightness := 0 } ∈ t.pixelsSet) = true ∧
    holds (exec (.sharedSet 0 1) base) (fun t => t.last.trace = []) = true := by decide +kernel

end Sys2Proof.Tests
end

section
/-! What an instruction can do to the notification buffers, said once, and the two statements of spec/20_memory.md that follow from it. -/

namespace Sys2Proof.Machine

/-- The three event encoders (R71 to R74). -/
abbrev IsEventEncoder (i : Instr) : Prop :=
  (∃ cid ev time, i = .pinEventIn cid ev time) ∨ (∃ src ev time, i = .buttonEventIn src ev time) ∨
    (∃ code time, i = .gestureEventIn code time)

/-- `t` has the notification buffers of `s`, and its report records no write to them. -/
structure BuffersUntouched (s t : State) : Prop where
  cfg : t.cfg = s.cfg
  nbuf : t.blk.nbuf = s.blk.nbuf
  bufWrites : t.last.bufWrites = []

section

variable {i : Instr} {s t : State}

theorem Silent.buffersUntouched (h : Silent s t) : BuffersUntouched s t := by
  obtain ⟨r, rfl⟩ := h
  exact ⟨rfl, rfl, rfl⟩

/-- An end that is silent or leaves the buffers untouched leaves them untouched. -/
theorem buffersUntouched_of_silent_or {P : Prop} (h : Silent s t ∨ P) (hP : P → BuffersUntouched s t) :
    BuffersUntouched s t :=
  h.elim Silent.buffersUntouched hP

theorem BuffersUntouched.nbufByte_eq (h : BuffersUntouched s t) (b : BufId) (k : Nat) :
    t.nbufByte b k = s.nbufByte b k := by
  simp only [State.nbufByte, State.nbufOf, h.cfg, h.nbuf]

/-- A wire form leaves the notification buffers untouched. -/
theorem form_buffersUntouched (hf : i.isForm = true) (ht : exec i s = .next t) : BuffersUntouched s t := by
  have e := exec_effect ht
  cases i
  case command | sampleEnv | sampleOrient | sampleAnalog | hnorm | tilt | median | pinEventIn | buttonEventIn
      | gestureEventIn | sharedSet | sharedGet | reset => cases hf
  case displayText | displayPixels0 | displayPixels1 => cases e; exact ⟨rfl, rfl, rfl⟩
  case pinSetTouch | pinSetOutput | pinSetPwm | pinSetServo =>
    exact buffersUntouched_of_silent_or e fun h => h ▸ ⟨rfl, rfl, rfl⟩
  case pinSetPull =>
    refine buffersUntouched_of_silent_or e ?_
    rintro ⟨-, m, rfl⟩
    exact ⟨rfl, rfl, rfl⟩
  case pinSetEvent =>
    refine buffersUntouched_of_silent_or e ?_
    rintro ⟨-, x, xs, -, rfl⟩
    exact ⟨rfl, rfl, rfl⟩
  case sharedData =>
    refine buffersUntouched_of_silent_or e ?_
    rintro ⟨g, rfl⟩
    exact ⟨rfl, rfl, rfl⟩

/-- What an instruction can do to the notification buffers: an event encoder may write one frame, RESET clears them and records no
write, and nothing else touches them. -/
theorem exec_buffers (ht : exec i s = .next t) :
    BuffersUntouched s t ∨ (i = .reset ∧ t.last.bufWrites = []) ∨ (IsEventEncoder i ∧ Notified s t) := by
  by_cases hf : i.isForm = true
  · exact .inl (form_buffersUntouched hf ht)
  have e := exec_effect ht
  cases i
  case displayText | displayPixels0 | displayPixels1 | pinSetPull | pinSetTouch | pinSetOutput | pinSetPwm
      | pinSetServo | pinSetEvent | sharedData => exact absurd rfl hf
  case command f =>
    refine .inl (buffersUntouched_of_silent_or e ?_)
    rintro ⟨j, hd, hj⟩
    exact form_buffersUntouched (decodeFrame_isForm hd) hj
  case sampleEnv =>
    obtain ⟨xs, l, ws, -, -, ⟨hcfg, -⟩, hblk, hlast⟩ := e
    exact .inl ⟨hcfg, by rw [hblk], by rw [hlast]; rfl⟩
  case sampleOrient =>
    obtain ⟨xs, ws, -, -, ⟨hcfg, -⟩, hblk, hlast⟩ := e
    exact .inl ⟨hcfg, by rw [hblk], by rw [hlast]; rfl⟩
  case sampleAnalog =>
    obtain ⟨xs, r, -, ⟨hcfg, -⟩, hblk, hlast⟩ | ⟨ring, ws, -, -, -, ⟨hcfg, -⟩, hblk, hlast⟩ := e
    · exact .inl ⟨hcfg, by rw [hblk], by rw [hlast]; rfl⟩
    · exact .inl ⟨hcfg, by rw [hblk], by rw [hlast]; rfl⟩
  case hnorm | tilt | median | sharedGet =>
    obtain ⟨r, rfl⟩ := e
    exact .inl ⟨rfl, rfl, rfl⟩
  case sharedSet =>
    refine .inl (buffersUntouched_of_silent_or e ?_)
    rintro ⟨g, rfl⟩
    exact ⟨rfl, rfl, rfl⟩
  case pinEventIn cid ev time =>
    exact e.elim (fun h => .inl h.buffersUntouched) fun h => .inr (.inr ⟨.inl ⟨cid, ev, time, rfl⟩, h⟩)
  case buttonEventIn src ev time => exact .inr (.inr ⟨.inr (.inl ⟨src, ev, time, rfl⟩), e⟩)
  case gestureEventIn code time => exact .inr (.inr ⟨.inr (.inr ⟨code, time, rfl⟩), e⟩)
  case reset => cases e; exact .inr (.inl ⟨rfl, rfl⟩)

/-- The writes of a notification frame: a payload below the discriminator, in one buffer, then the discriminator (R36). -/
theorem Notified.bufWrites_eq (h : Notified s t) : ∃ payload b df,
    t.last.bufWrites = payload ++ [(b, 19, df)] ∧ payload ≠ [] ∧ ∀ w ∈ payload, w.1 = b ∧ w.2.1 < 19 := by
  obtain ⟨b, payload, df, ch, -, hne, hlt, rfl⟩ := h
  refine ⟨payload.map fun w => (b, w.1, w.2), b, df, rfl, by simpa using hne, ?_⟩
  intro w hw
  obtain ⟨v, hv, rfl⟩ := List.mem_map.mp hw
  exact ⟨rfl, hlt v hv⟩

/-- A frame written to a buffer changes no byte that none of its writes names (R37). -/
theorem nbufByte_mapSet_writeBytes (s : State) (b : BufId) (ws : List (Nat × Byte)) (r : Report) {b' : BufId} {k : Nat}
    (h : ∀ w ∈ ws, ¬ (b = b' ∧ w.1 = k)) :
    (s.after { s.blk with nbuf := mapSet b (writeBytes (s.nbufOf b) ws) s.blk.nbuf } r).nbufByte b' k =
      s.nbufByte b' k := by
  unfold State.nbufByte
  by_cases hb : b' = b
  · subst hb
    have hk : ∀ w ∈ ws, w.1 ≠ k := fun w hw hwk => h w hw ⟨rfl, hwk⟩
    calc (mapGet b' _ (mapSet b' (writeBytes (s.nbufOf b') ws) s.blk.nbuf))[k]?
        = (writeBytes (s.nbufOf b') ws)[k]? := by rw [mapGet_mapSet_self]
      _ = (s.nbufOf b')[k]? := writeBytes_other hk _
  · exact congrArg (·[k]?) (mapGet_mapSet_other hb _ _ _)

/-- An event encoder changes no byte of a buffer that none of its recorded writes names (R37). -/
theorem Notified.nbufByte_eq (h : Notified s t) {b : BufId} {k : Nat}
    (hw : ∀ w ∈ t.last.bufWrites, ¬ (w.1 = b ∧ w.2.1 = k)) : t.nbufByte b k = s.nbufByte b k := by
  obtain ⟨b₀, payload, df, ch, -, -, -, rfl⟩ := h
  refine nbufByte_mapSet_writeBytes s b₀ _ _ fun w hm => ?_
  rcases List.mem_append.mp hm with hm | hm
  · exact hw (b₀, w.1, w.2) (List.mem_append_left _ (List.mem_map_of_mem hm))
  · cases List.mem_singleton.mp hm
    exact hw (b₀, 19, df) (List.mem_append_right _ (List.mem_singleton_self _))

/-- A caller's buffer returned after writes below `n` keeps every byte from `n` on. -/
theorem returned_buffer_keeps {n k : Nat} {buf b : List Byte} {xs : List Interaction} {ws : List (Nat × Byte)}
    (hlt : ∀ w ∈ ws, w.1 < n) (hlast : t.last = doneReport xs (.buffer (writeBytes buf ws)))
    (hb : t.last.result = .buffer b) (hk : n ≤ k) : b[k]? = buf[k]? := by
  rw [hlast] at hb
  cases hb
  exact writeBytes_other (fun w hw => ((hlt w hw).trans_le hk).ne) buf

end

/-- Settles O42: only an event encoder records a write, and the frame it records ends with the discriminator. -/
theorem discriminatorIsWrittenLast : Obligations.DiscriminatorIsWrittenLast := by
  intro i s t ht hne
  obtain h | ⟨-, h⟩ | ⟨hi, h⟩ := exec_buffers ht
  · exact absurd h.bufWrites hne
  · exact absurd h hne
  · exact ⟨hi, h.bufWrites_eq⟩

/-- Settles O43: the first clause by what an instruction can do to the buffers, the second by the offsets each telemetry operation
writes. -/
theorem unnamedBufferBytesAreKept : Obligations.UnnamedBufferBytesAreKept := by
  refine ⟨fun i s t ht hi b k hw => ?_, fun s t buf b p hb k => ⟨fun ht hk => ?_, fun ht hk => ?_, fun ht hk => ?_⟩⟩
  · obtain h | ⟨h, -⟩ | ⟨-, h⟩ := exec_buffers ht
    · exact h.nbufByte_eq b k
    · exact absurd h hi
    · exact h.nbufByte_eq hw
  · obtain ⟨xs, l, ws, -, hlt, -, -, hlast⟩ := exec_effect ht
    exact returned_buffer_keeps hlt hlast hb hk
  · obtain ⟨xs, ws, -, hlt, -, -, hlast⟩ := exec_effect ht
    exact returned_buffer_keeps hlt hlast hb hk
  · obtain ⟨xs, r, -, -, -, hlast⟩ | ⟨ring, ws, -, -, hlt, -, -, hlast⟩ := exec_effect ht
    · rw [hlast] at hb
      cases hb
    · exact returned_buffer_keeps hlt hlast hb hk

end Sys2Proof.Machine
end

section
/-! The header byte and the operand fields of a frame, and the two statements of spec/30_encoding.md that follow from them. -/

namespace Sys2Proof

@[simp] theorem classOf_toNat (h : Byte) : (classOf h).toNat = h.toNat / 32 := by
  have := h.isLt
  simp only [classOf, BitVec.extractLsb'_toNat, Nat.shiftRight_eq_div_pow]
  omega

@[simp] theorem subOf_toNat (h : Byte) : (subOf h).toNat = h.toNat % 32 := by
  simp [subOf]

/-- `(cls << 5) | sub` is a sum, since the fields do not overlap (R52). -/
@[simp] theorem header_toNat (cls : BitVec 3) (sub : BitVec 5) : (header cls sub).toNat = 32 * cls.toNat + sub.toNat := by
  simp only [header, BitVec.toNat_append]
  rw [← Nat.shiftLeft_add_eq_or_of_lt sub.isLt, Nat.shiftLeft_eq]
  omega

/-- A header byte is its two fields and nothing else (R42). -/
@[simp] theorem header_classOf_subOf (h : Byte) : header (classOf h) (subOf h) = h := by
  apply BitVec.eq_of_toNat_eq
  simp [Nat.div_add_mod]

/-- Settles O1. -/
theorem headerByteIsClassOverSubcommand : Obligations.HeaderByteIsClassOverSubcommand :=
  fun h => ⟨classOf_toNat h, subOf_toNat h, header_classOf_subOf h⟩

theorem u8At_of_getElem? {f : List Byte} {i : Nat} {b : Byte} (h : f[i]? = some b) : u8At f i = b := by
  rw [u8At, List.getD_eq_getElem?_getD, h, Option.getD_some]

end Sys2Proof

namespace Sys2Proof.Machine

/-- An s16 field is the u16 field read in two's complement (R9). -/
theorem sext16_eq (w : Word16) :
    sext16 w = if w.toNat < 32768 then (w.toNat : Int) else w.toNat - 65536 := by
  rw [sext16, BitVec.toInt_eq_toNat_cond]
  split <;> split <;> omega

/-- DISPLAY.TEXT completes under every legal configuration, with the exact report of R57. -/
theorem exec_displayText {s : State} (h : s.cfg.legal = true) (d : Byte) (raw : List Byte) :
    exec (.displayText d raw) s = .next (s.after s.blk
      (doneReport [.emit .stopAnimation, .emit (.scrollText (textOf raw) (10 * d.toNat))] .nothing)) := by
  rw [exec, execDisplayText, transact_of_legal h]
  rfl

/-- Settles O2: the fields by their values, the operands by the form the frame's header selects, the TEXT delay by the report of
DISPLAY.TEXT. -/
theorem operandFieldsAreAssembledFromBytes : Obligations.OperandFieldsAreAssembledFromBytes := by
  refine ⟨fun f i b => u8At_of_getElem?, fun f i => ⟨u16leAt_toNat f i, sext16_eq _⟩, fun c f i hd => ?_, fun s d raw h => ?_⟩
  · obtain ⟨x, rest, k, -, -, -, -, rfl⟩ := decodeFrame_form hd
    cases k
    case text | setPull | setOutput | setPwm | setEvent | sharedData => exact ⟨rfl, rfl⟩
    case pixels0 | pixels1 => exact fun k hk => Vector.getElem_ofFn hk
    case setTouch => exact rfl
    case setServo => exact ⟨rfl, rfl, rfl, rfl⟩
  · exact ⟨_, textOf raw, exec_displayText h d raw, by simp [State.after, doneReport]⟩

end Sys2Proof.Machine
end

section
/-! COMMAND on every frame the port can carry: it completes, and it ends silently or done with nothing returned; the statement of
spec/40_command_parser.md that follows from the two. -/

namespace Sys2Proof.Machine

/-- `t` is `s` after an operation that was not rejected and returned nothing. -/
def DoneWithNothing (s t : State) : Prop := ∃ b xs, t = s.after b (doneReport xs .nothing)

section

variable {i : Instr} {s t : State}

/-- What a wire form can do: end silently, or be done with nothing returned. -/
theorem form_silent_or_done (hf : i.isForm = true) (ht : exec i s = .next t) : Silent s t ∨ DoneWithNothing s t := by
  have e := exec_effect ht
  cases i
  case command | sampleEnv | sampleOrient | sampleAnalog | hnorm | tilt | median | pinEventIn | buttonEventIn
      | gestureEventIn | sharedSet | sharedGet | reset => cases hf
  case displayText | displayPixels0 | displayPixels1 => exact .inr ⟨_, _, e⟩
  case pinSetTouch | pinSetOutput | pinSetPwm | pinSetServo => exact e.imp_right fun h => ⟨_, _, h⟩
  case pinSetPull => exact e.imp_right fun ⟨_, _, h⟩ => ⟨_, _, h⟩
  case pinSetEvent => exact e.imp_right fun ⟨_, _, _, _, h⟩ => ⟨_, _, h⟩
  case sharedData => exact e.imp_right fun ⟨_, h⟩ => ⟨_, _, h⟩

/-- COMMAND ends as its form does, and silently where its frame is rejected (R53, R54). -/
theorem command_silent_or_done {f : List Byte} (ht : exec (.command f) s = .next t) :
    Silent s t ∨ DoneWithNothing s t := by
  obtain h | ⟨j, hd, hj⟩ := exec_effect ht
  · exact .inl h
  · exact form_silent_or_done (decodeFrame_isForm hd) hj

theorem result_of_silent_or_done (h : Silent s t ∨ DoneWithNothing s t) : t.last.result = .nothing := by
  obtain ⟨r, rfl⟩ | ⟨b, xs, rfl⟩ := h <;> rfl

/-- The label tells the two ends apart: a labelled end is the silent one, with that label. -/
theorem eq_noopReport_of_silent_or_done (h : Silent s t ∨ DoneWithNothing s t) {r : NoopReason}
    (hr : t.last.noop = some r) : t = s.after s.blk (noopReport [] r) := by
  obtain ⟨r', rfl⟩ | ⟨b, xs, rfl⟩ := h
  · cases hr; rfl
  · cases hr

/-- Under a legal configuration an operation completes where its body does. -/
theorem transact_completes {body : State → Out} (h : s.cfg.legal = true) (hb : ∃ t, body s.begin = .next t) :
    ∃ t, s.transact body = .next t :=
  hb.imp fun _ ht => transact_next.mpr ⟨h, ht⟩

/-- The pin check completes whatever the pin: it is a no-op or the body's end. -/
theorem withValidPin_completes {p : Pin} {body : State → Out} (hb : ∃ t, body s = .next t) :
    ∃ t, withValidPin p s body = .next t := by
  unfold withValidPin
  split
  · exact hb
  · exact ⟨_, rfl⟩

/-- Every wire form completes on all its operands. -/
theorem form_completes (hf : i.isForm = true) (h : s.cfg.legal = true) : ∃ t, exec i s = .next t := by
  cases i <;> rw [exec]
  case command | sampleEnv | sampleOrient | sampleAnalog | hnorm | tilt | median | pinEventIn | buttonEventIn
      | gestureEventIn | sharedSet | sharedGet | reset => cases hf
  case displayText | displayPixels0 | displayPixels1 => exact ⟨_, transact_of_legal h⟩
  case pinSetTouch | pinSetOutput | pinSetPwm | pinSetServo =>
    exact transact_completes h (withValidPin_completes ⟨_, rfl⟩)
  case pinSetPull =>
    refine transact_completes h (withValidPin_completes ?_)
    split <;> exact ⟨_, rfl⟩
  case pinSetEvent =>
    refine transact_completes h ?_
    split
    · exact ⟨_, rfl⟩
    · split <;> exact ⟨_, rfl⟩
  case sharedData =>
    refine transact_completes h ?_
    split <;> exact ⟨_, rfl⟩

/-- A frame of at most 20 bytes is never too long for the port (R41). -/
theorem decodeFrame_ne_tooLong {c : Cfg} {f : List Byte} (h : c.legal = true) (hl : f.length ≤ 20) :
    decodeFrame c f ≠ .tooLong := by
  unfold decodeFrame
  rw [if_neg (by rw [legal_frameMax h]; omega)]
  split
  · nofun
  · split
    · nofun
    · split <;> nofun

/-- COMMAND completes on every frame the port can carry (R54). -/
theorem command_completes {f : List Byte} (h : s.cfg.legal = true) (hl : f.length ≤ 20) :
    ∃ t, exec (.command f) s = .next t := by
  rw [exec, execCommand]
  refine transact_completes h ?_
  split
  next hd => exact absurd hd (decodeFrame_ne_tooLong h hl)
  next => exact ⟨_, rfl⟩
  next i hd =>
    have hf : i.isForm = true := decodeFrame_isForm hd
    rw [runForm_begin hf h]
    exact form_completes hf h

end

/-- Settles O11: COMMAND completes, and the two ends it can have both return nothing. -/
theorem commandNeverSurfacesAnError : Obligations.CommandNeverSurfacesAnError := by
  intro s f h hl
  obtain ⟨t, ht⟩ := command_completes h hl
  have hend := command_silent_or_done ht
  exact ⟨t, ht, result_of_silent_or_done hend, fun r hr => eq_noopReport_of_silent_or_done hend hr⟩

end Sys2Proof.Machine
end

section
/-! DISPLAY.PIXELS_0, run by itself and by COMMAND: the cells it stores and the report it ends with; the statement of
spec/41_display_compositor.md that follows. -/

namespace Sys2Proof

/-- A byte inside a frame is what the decoder reads there. -/
theorem getElem?_eq_some_u8At {f : List Byte} {i : Nat} (h : i < f.length) : f[i]? = some (u8At f i) := by
  rw [u8At, List.getD_eq_getElem _ _ h, List.getElem?_eq_getElem h]

end Sys2Proof

namespace Sys2Proof.Machine

section

variable {s : State} {f : List Byte}

/-- A cell of rows 0 to 2 holds its byte of the write (R33, R58). -/
theorem writeRows012_of_lt (px : Vector Byte 15) (g : Grid) {r : Fin 5} (c : Fin 5) (h : r.val < 3) :
    (writeRows012 px g)[r][c] = px[5 * r.val + c.val] := by
  simp [writeRows012, h]

/-- Rows 3 and 4 keep what they held (R58). -/
theorem writeRows012_of_ge (px : Vector Byte 15) (g : Grid) {r : Fin 5} (c : Fin 5) (h : 3 ≤ r.val) :
    (writeRows012 px g)[r][c] = g[r][c] := by
  simp [writeRows012, Nat.not_lt.mpr h]

/-- DISPLAY.PIXELS_0 completes under every legal configuration; it changes the grid alone and requests nothing. -/
theorem exec_displayPixels0 (h : s.cfg.legal = true) (px : Vector Byte 15) :
    exec (.displayPixels0 px) s =
      .next (s.after { s.blk with grid := writeRows012 px s.blk.grid } (doneReport [] .nothing)) := by
  rw [exec, execDisplayPixels0, transact_of_legal h]
  rfl

/-- COMMAND on a frame that decodes to a form is that form run by itself (R53). -/
theorem exec_command_of_form {i : Instr} (h : s.cfg.legal = true) (hd : decodeFrame s.cfg f = .form i) :
    exec (.command f) s = exec i s := by
  rw [exec, execCommand_form hd, transact_of_legal h, runForm_begin (decodeFrame_isForm hd) h]

/-- COMMAND on a rejected frame reports the label and does nothing else (R54). -/
theorem exec_command_of_noop {r : NoopReason} (h : s.cfg.legal = true) (hd : decodeFrame s.cfg f = .noop r) :
    exec (.command f) s = .next (s.after s.blk (noopReport [] r)) := by
  simp only [exec, execCommand, transact_of_legal h, State.begin_cfg, hd]
  rfl

end

/-- Settles O13: the form by its two kinds of cell, the frame by what it decodes to on either side of 16 bytes. -/
theorem pixels0WritesRowsZeroToTwo : Obligations.Pixels0WritesRowsZeroToTwo := by
  intro s h
  have hsel : selectForm s.cfg s.cfg.clsDisplay s.cfg.subPixels0 = .ok .pixels0 := (selectForm_of_legal h).2.1
  refine ⟨fun px => ⟨_, exec_displayPixels0 h px, fun r c =>
    ⟨writeRows012_of_lt px s.blk.grid c, writeRows012_of_ge px s.blk.grid c⟩⟩, ?_⟩
  rintro f body rfl hmax
  refine ⟨fun hshort => exec_command_of_noop h (decodeFrame_of_short h hsel hshort hmax), fun hlen => ?_⟩
  have hd := decodeFrame_of_select h hsel hlen hmax
  refine ⟨_, (exec_command_of_form h hd).trans (exec_displayPixels0 h _), fun r c =>
    ⟨fun hr => ?_, writeRows012_of_ge _ s.blk.grid c⟩⟩
  rw [writeRows012_of_lt _ _ c hr, Vector.getElem_ofFn, ← Nat.add_assoc]
  exact getElem?_eq_some_u8At (by omega)

end Sys2Proof.Machine
end

section
/-! PIN.SET_TOUCH and PIN.SET_EVENT, run by themselves: their exact ends under a legal configuration, what the two kinds of end do to
the subscription count, and two statements of spec/42_pin_commands.md that follow. -/

namespace Sys2Proof.Machine

section

variable {s t : State} {p : Pin}

/-- A form checked by its pin is a no-op BAD_PIN where the pin is not valid (R61). -/
theorem transact_withValidPin_bad {body : State → Out} (h : s.cfg.legal = true) (hp : p ∉ s.cfg.validPins) :
    s.transact (fun s => withValidPin p s body) = .next (s.after s.blk (noopReport [] (.badPin p))) := by
  rw [transact_of_legal h, withValidPin_begin_bad hp]
  rfl

/-- PIN.SET_TOUCH on a valid pin requests touch sensing and changes nothing (R63). -/
theorem exec_pinSetTouch (h : s.cfg.legal = true) (hp : p ∈ s.cfg.validPins) :
    exec (.pinSetTouch p) s = .next (s.after s.blk (doneReport [.emit (.enableTouch p)] .nothing)) := by
  rw [exec, execPinSetTouch, transact_of_legal h, withValidPin_begin hp]
  rfl

/-- PIN.SET_EVENT on a pin that is no event pin is a no-op BAD_PIN, whatever its type (R61). -/
theorem exec_pinSetEvent_bad (h : s.cfg.legal = true) (hp : p ∉ s.cfg.eventPins) (type : Byte) :
    exec (.pinSetEvent p type) s = .next (s.after s.blk (noopReport [] (.badPin p))) := by
  have hc : componentOf s.cfg p = none := mapFind?_eq_none.mpr hp
  simp only [exec, execPinSetEvent, transact_of_legal h, State.begin_cfg, hc]
  rfl

/-- PIN.SET_EVENT with type P_EVT_NONE disables the pin's entry, unsubscribes its component and then disables detection (R68). -/
theorem exec_pinSetEvent_evtNone {cid : ComponentId} (h : s.cfg.legal = true) (hp : (p, cid) ∈ s.cfg.identifierTable) :
    exec (.pinSetEvent p s.cfg.evtNone) s =
      .next (s.after { s.blk with sub := mapSet p { s.subOf p with en := false } s.blk.sub }
        (doneReport [.emit (.unsubscribe cid .pinHandler), .emit (.enableEdgeDetection p none)] .nothing)) := by
  have hc : componentOf s.cfg p = some cid := componentOf_of_mem h hp
  have ht : decodeEventType s.cfg s.cfg.evtNone = some none := (decodeEventType_of_legal h).1
  simp only [exec, execPinSetEvent, transact_of_legal h, State.begin_cfg, hc, ht]
  rfl

/-- The written entry of the registry is the one given. -/
theorem subOf_after_mapSet_self (s : State) (p : Pin) (e : Subscription) (r : Report) :
    (s.after { s.blk with sub := mapSet p e s.blk.sub } r).subOf p = e :=
  mapGet_mapSet_self p resetSubscription e s.blk.sub

/-- Every other entry of the registry is kept. -/
theorem subOf_after_mapSet_other {q : Pin} (hq : q ≠ p) (s : State) (e : Subscription) (r : Report) :
    (s.after { s.blk with sub := mapSet p e s.blk.sub } r).subOf q = s.subOf q :=
  mapGet_mapSet_other hq resetSubscription e s.blk.sub

/-- In a list without repeats, a predicate that fails at one more member counts one less. -/
theorem countP_add_one_of_switched_off {α : Type} [DecidableEq α] {l : List α} {f g : α → Bool} {a : α} (hn : l.Nodup)
    (ha : a ∈ l) (hf : f a = true) (hg : g a = false) (hfg : ∀ b, b ≠ a → g b = f b) : l.countP g + 1 = l.countP f := by
  have hl : l.Perm (a :: l.erase a) := List.perm_cons_erase ha
  have hrest : (l.erase a).countP g = (l.erase a).countP f :=
    List.countP_congr fun b hb => by rw [hfg b (hn.mem_erase_iff.mp hb).1]
  calc l.countP g + 1
      = (l.erase a).countP g + 1 := by rw [hl.countP_eq, List.countP_cons_of_neg (by simp [hg])]
    _ = (l.erase a).countP f + 1 := by rw [hrest]
    _ = l.countP f := by rw [hl.countP_eq f, List.countP_cons_of_pos hf]

/-- A silent end keeps the subscription count. -/
theorem Silent.subscriptionCount_eq (h : Silent s t) : subscriptionCount t = subscriptionCount s := by
  obtain ⟨r, rfl⟩ := h
  rfl

/-- A SET_EVENT that ends in a no-op ends silently. -/
theorem silent_of_pinSetEvent_noop {type : Byte} (ht : exec (.pinSetEvent p type) s = .next t) (hn : t.last.noop ≠ none) :
    Silent s t := by
  obtain h | ⟨-, e, xs, -, rfl⟩ := exec_effect ht
  · exact h
  · exact absurd rfl hn

/-- Disabling a subscribed event pin lowers the subscription count by one: the event pins are distinct. -/
theorem subscriptionCount_disable (h : s.cfg.legal = true) (hp : p ∈ s.cfg.eventPins) (hs : (s.subOf p).en = true)
    {e : Subscription} (he : e.en = false) (r : Report) :
    subscriptionCount (s.after { s.blk with sub := mapSet p e s.blk.sub } r) + 1 = subscriptionCount s := by
  obtain ⟨-, ⟨-, hn, -⟩, -⟩ := legal_iff.mp h
  refine countP_add_one_of_switched_off hn hp hs ?_ fun q hq => ?_
  · rw [subOf_after_mapSet_self, he]
  · rw [subOf_after_mapSet_other hq]

end

/-- Settles O17: the two ends of the pin check, and what the frame decodes to on either side of 2 bytes. -/
theorem setTouchEmitsEnableTouchOnly : Obligations.SetTouchEmitsEnableTouchOnly := by
  intro s h
  obtain ⟨-, -, -, -, hsel, -⟩ := selectForm_of_legal h
  refine ⟨fun p hp => exec_pinSetTouch h hp, fun p hp => transact_withValidPin_bad h hp, ?_, fun p extra hx => ?_⟩
  · exact exec_command_of_noop h (decodeFrame_of_short h hsel (by decide) (by decide))
  · have hmin : minLength .setTouch ≤ (p :: extra).length + 1 := by simp [minLength]
    have hmax : (p :: extra).length + 1 ≤ 20 := by rw [List.length_cons]; omega
    exact exec_command_of_form h (decodeFrame_of_select h hsel hmin hmax)

/-- Settles O24: a no-op is silent and keeps the count, and an unsubscription switches one of the distinct event pins off. -/
theorem subscriptionCountFollowsSetEvent : Obligations.SubscriptionCountFollowsSetEvent := by
  intro s h
  refine ⟨List.countP_eq_length_filter, List.countP_le_length, fun p type t ht hn => ?_, fun p type hp => ?_,
    fun p hp hs => ?_⟩
  · exact (silent_of_pinSetEvent_noop ht hn).subscriptionCount_eq
  · exact ⟨_, exec_pinSetEvent_bad h hp type, rfl, Silent.subscriptionCount_eq ⟨_, rfl⟩⟩
  · obtain ⟨⟨_, cid⟩, hmem, rfl⟩ := List.mem_map.mp hp
    refine ⟨_, exec_pinSetEvent_evtNone h hmem, ?_, subscriptionCount_disable h hp hs rfl _,
      by simp [State.after, doneReport]⟩
    rw [subOf_after_mapSet_self]

end Sys2Proof.Machine
end

section
/-! The median filter's two channels: an analog fill and what can write an analog ring; the independence of the two channels and
the exact end of MEDIAN; the two statements of spec/45_median_filter.md that follow. -/

namespace Sys2Proof.Machine

section AnalogRings

variable {i : Instr} {s t : State}

/-- The ring an analog fill leaves is its answers in slot order (R84). -/
theorem aringOf_achFill (p : Pin) (s : State) :
    (achFill p s).2.aringOf p = (takeSamples p s.cfg.nAnalog s).1 :=
  mapGet_mapSet_self p _ _ _

/-- The trace of an analog fill is its questions in slot order, after what was there (R84). -/
theorem trace_achFill (p : Pin) (s : State) : (achFill p s).2.last.trace = s.last.trace ++
    (takeSamples p s.cfg.nAnalog s).1.map fun w => Interaction.askAnalog (.getAnalogValue p) w :=
  congrArg Report.trace (takeSamples_asked p s.cfg.nAnalog s).last

/-- The median of an analog fill does not depend on the block's state. -/
theorem achFill_fst_blk (p : Pin) (s : State) (b : Block) : (achFill p { s with blk := b }).1 = (achFill p s).1 := by
  simp only [achFill, takeSamples_blk]

theorem Silent.aring_eq (h : Silent s t) : t.blk.aring = s.blk.aring := by
  obtain ⟨r, rfl⟩ := h
  rfl

/-- An end that is silent or keeps the analog rings keeps them. -/
theorem aring_eq_of_silent_or {P : Prop} (h : Silent s t ∨ P) (hP : P → t.blk.aring = s.blk.aring) :
    t.blk.aring = s.blk.aring :=
  h.elim Silent.aring_eq hP

theorem Notified.aring_eq (h : Notified s t) : t.blk.aring = s.blk.aring := by
  obtain ⟨b, payload, df, ch, -, -, -, rfl⟩ := h
  rfl

/-- Of the instructions that run their own rule, only SAMPLE_ANALOG and RESET can write an analog ring (R17). -/
theorem aring_eq_of_ne_command (ht : exec i s = .next t) (hc : ∀ f, i ≠ .command f) (ha : ∀ b p, i ≠ .sampleAnalog b p)
    (hr : i ≠ .reset) : t.blk.aring = s.blk.aring := by
  have e := exec_effect ht
  cases i
  case command f => exact absurd rfl (hc f)
  case sampleAnalog b p => exact absurd rfl (ha b p)
  case reset => exact absurd rfl hr
  case displayText | displayPixels0 | displayPixels1 => cases e; rfl
  case pinSetTouch | pinSetOutput | pinSetPwm | pinSetServo => exact aring_eq_of_silent_or e fun h => h ▸ rfl
  case pinSetPull => exact aring_eq_of_silent_or e fun ⟨_, _, h⟩ => h ▸ rfl
  case pinSetEvent => exact aring_eq_of_silent_or e fun ⟨_, _, _, _, h⟩ => h ▸ rfl
  case sharedData | sharedSet => exact aring_eq_of_silent_or e fun ⟨_, h⟩ => h ▸ rfl
  case pinEventIn => exact aring_eq_of_silent_or e Notified.aring_eq
  case buttonEventIn | gestureEventIn => exact Notified.aring_eq e
  case hnorm | tilt | median | sharedGet =>
    obtain ⟨r, rfl⟩ := e
    rfl
  case sampleEnv =>
    obtain ⟨xs, l, ws, -, -, -, hblk, -⟩ := e
    rw [hblk]
  case sampleOrient =>
    obtain ⟨xs, ws, -, -, -, hblk, -⟩ := e
    rw [hblk]

/-- Only SAMPLE_ANALOG and RESET can write an analog ring: no wire form is one of the two, so COMMAND cannot (R17). -/
theorem exec_aring_eq (ht : exec i s = .next t) (ha : ∀ b p, i ≠ .sampleAnalog b p) (hr : i ≠ .reset) :
    t.blk.aring = s.blk.aring := by
  by_cases hc : ∃ f, i = .command f
  · obtain ⟨f, rfl⟩ := hc
    refine aring_eq_of_silent_or (exec_effect ht) fun ⟨j, hd, hj⟩ => ?_
    have hf : j.isForm = true := decodeFrame_isForm hd
    exact aring_eq_of_ne_command hj (by rintro f rfl; cases hf) (by rintro b p rfl; cases hf) (by rintro rfl; cases hf)
  · exact aring_eq_of_ne_command ht (not_exists.mp hc) ha hr

end AnalogRings

section Channels

variable (s : State)

@[simp] theorem State.withLight_cfg (ring : List Byte) (idx : Nat) : (s.withLight ring idx).cfg = s.cfg := rfl

@[simp] theorem State.withLight_begin (ring : List Byte) (idx : Nat) :
    (s.withLight ring idx).begin = s.begin.withLight ring idx := rfl

@[simp] theorem State.withLight_emit (ring : List Byte) (idx : Nat) (r : Request) :
    (s.withLight ring idx).emit r = (s.emit r).withLight ring idx := rfl

@[simp] theorem State.withLight_askBool (ring : List Byte) (idx : Nat) (q : BoolQuery) :
    (s.withLight ring idx).askBool q = ((s.askBool q).1, (s.askBool q).2.withLight ring idx) := rfl

@[simp] theorem State.withRings_begin (rings : List (Pin × List Word16)) :
    (s.withRings rings).begin = s.begin.withRings rings := rfl

/-- An operation whose configuration and body do not see a change `f` of the state carries the change through. -/
theorem transact_mapNext {f : State → State} {body : State → Out} (hc : (f s).cfg = s.cfg)
    (hb : body (f s).begin = mapNext f (body s.begin)) : (f s).transact body = mapNext f (s.transact body) := by
  unfold State.transact
  rw [hc]
  split
  · exact hb
  · rfl

/-- An analog fill neither reads nor writes the light channel (R84, R86). -/
theorem achFill_withLight (p : Pin) (ring : List Byte) (idx : Nat) :
    achFill p (s.withLight ring idx) = ((achFill p s).1, (achFill p s).2.withLight ring idx) := by
  have hblk : (takeSamples p s.cfg.nAnalog s).2.blk = s.blk := (takeSamples_asked p s.cfg.nAnalog s).blk
  have hfill : takeSamples p s.cfg.nAnalog (s.withLight ring idx) =
      ((takeSamples p s.cfg.nAnalog s).1, (takeSamples p s.cfg.nAnalog s).2.withLight ring idx) := by
    rw [State.withLight, State.setLight, takeSamples_blk, State.withLight, State.setLight, hblk]
  unfold achFill
  rw [State.withLight_cfg, hfill]
  rfl

/-- DIGITAL_MASK neither reads nor writes the analog rings (R77). -/
theorem digitalMask_withRings (rings : List (Pin × List Word16)) :
    digitalMask (s.withRings rings) = ((digitalMask s).1, (digitalMask s).2.withRings rings) := by
  obtain ⟨xs, hasked⟩ := digitalMask_asked s
  rw [State.withRings, digitalMask_blk, State.withRings, hasked.blk]

/-- SAMPLE_ANALOG carries any light channel through unread (R82, R86). -/
theorem exec_sampleAnalog_withLight (buf : List Byte) (p : Pin) (ring : List Byte) (idx : Nat) :
    exec (.sampleAnalog buf p) (s.withLight ring idx) =
      mapNext (fun t => t.withLight ring idx) (exec (.sampleAnalog buf p) s) := by
  simp only [exec, execSampleAnalog]
  refine transact_mapNext s (f := fun t => t.withLight ring idx) rfl ?_
  simp only [State.withLight_begin, State.withLight_cfg, State.withLight_askBool, State.withLight_emit,
    achFill_withLight]
  split
  · rfl
  split
  · rfl
  split
  · rfl
  · rfl

/-- SAMPLE_ENV carries any analog rings through unread (R76, R86). -/
theorem exec_sampleEnv_withRings (buf : List Byte) (rings : List (Pin × List Word16)) :
    exec (.sampleEnv buf) (s.withRings rings) = mapNext (fun t => t.withRings rings) (exec (.sampleEnv buf) s) := by
  simp only [exec, execSampleEnv]
  refine transact_mapNext s (f := fun t => t.withRings rings) rfl ?_
  rw [State.withRings_begin, digitalMask_withRings]
  split
  · rfl
  · rfl

end Channels

section Median

variable {s t : State} {v w : List Int}

/-- MEDIAN completes exactly on a non-empty list without negatives, and returns the median with nothing else changed (R83). -/
theorem exec_median_next : exec (.median v) s = .next t ↔
    s.cfg.legal = true ∧ v ≠ [] ∧ v.any (· < 0) = false ∧ t = s.after s.blk (doneReport [] (.int (medianOf v))) := by
  rw [exec, execMedian, transact_next]
  refine and_congr_right fun _ => ?_
  split
  next hnil => simp [hnil]
  next hne =>
    split
    next hneg => simp [hneg]
    next hpos => simp only [finish_next, ne_eq, hne, not_false_eq_true, hpos, true_and]; rfl

/-- MEDIAN depends on its values only as a multiset (R86). -/
theorem exec_median_perm (h : v.Perm w) (s : State) : exec (.median v) s = exec (.median w) s := by
  have hnil : v = [] ↔ w = [] := by rw [← List.length_eq_zero_iff, h.length_eq, List.length_eq_zero_iff]
  have hneg : v.any (· < 0) = w.any (· < 0) := h.any_eq
  simp only [exec, execMedian, hnil, hneg, medianOf_perm h]

end Median

/-- Settles O29: the ring is the list of answers, taken anew whatever the rings were; the rest by what an instruction can do to a
ring. -/
theorem analogFillResamplesEverySlot : Obligations.AnalogFillResamplesEverySlot := by
  refine ⟨fun s p => ⟨(takeSamples p s.cfg.nAnalog s).1, length_takeSamples p s.cfg.nAnalog s, rfl, aringOf_achFill p s,
    trace_achFill p s, fun rings => achFill_fst_blk p s _⟩, fun i s t => exec_aring_eq⟩

/-- Settles O30: each channel's operation carries the other channel through, and MEDIAN's end names its values alone. -/
theorem medianChannelsAreIndependent : Obligations.MedianChannelsAreIndependent := by
  refine ⟨exec_sampleAnalog_withLight, exec_sampleEnv_withRings, fun s v w h => exec_median_perm h s,
    fun s s' t v _ hlegal' ht => ?_⟩
  obtain ⟨-, hne, hneg, rfl⟩ := exec_median_next.mp ht
  exact ⟨rfl, exec_median_next.mpr ⟨hlegal', hne, hneg, rfl⟩⟩

end Sys2Proof.Machine
end

section
/-! SHARED.DATA, run by itself and by COMMAND: its exact ends under a legal configuration and the value its frame carries; a statement
of spec/46_shared_registers.md that follows. -/

namespace Sys2Proof.Machine

section

variable {s : State} {i : Byte}

/-- SHARED.DATA on an index of the store writes that register alone and emits nothing (R87). -/
theorem exec_sharedData (h : s.cfg.legal = true) (hi : i.toNat < 4) (v : Word16) :
    exec (.sharedData i v) s =
      .next (s.after { s.blk with sreg := s.blk.sreg.set i.toNat v } (doneReport [] .nothing)) := by
  have hk : sregIndex i.toNat = some ⟨i.toNat, hi⟩ := sregIndex_of ⟨i.toNat, hi⟩ rfl
  simp only [exec, execSharedData, transact_of_legal h, hk]
  rfl

/-- SHARED.DATA on an index outside the store is a no-op BAD_INDEX, whatever its value (R87). -/
theorem exec_sharedData_badIndex (h : s.cfg.legal = true) (hi : 3 < i.toNat) (v : Word16) :
    exec (.sharedData i v) s = .next (s.after s.blk (noopReport [] (.badIndex i.toNat))) := by
  have hk : sregIndex i.toNat = none := sregIndex_none (.inr (by omega))
  simp only [exec, execSharedData, transact_of_legal h, hk]
  rfl

/-- An s16 field is its two bytes, low byte first, read in two's complement (R9, R27). -/
theorem sext16_u16leAt (f : List Byte) (k : Nat) : sext16 (u16leAt f k) =
    if (u8At f k).toNat + 256 * (u8At f (k + 1)).toNat < 32768
    then ((u8At f k).toNat + 256 * (u8At f (k + 1)).toNat : Int)
    else (u8At f k).toNat + 256 * (u8At f (k + 1)).toNat - 65536 := by
  rw [sext16_eq, u16leAt_toNat]
  push_cast
  rfl

end

/-- Settles O25: the form by the two sides of its index check, the frame by what it decodes to on either side of 4 bytes, under any
subcommand. -/
theorem sharedDataWritesTheIndexedRegister : Obligations.SharedDataWritesTheIndexedRegister := by
  intro s h
  refine ⟨fun i v => ⟨fun hi => exec_sharedData h hi v, fun hi => exec_sharedData_badIndex h hi v⟩, ?_⟩
  rintro sub f body rfl hmax
  obtain ⟨-, -, -, -, -, -, -, -, -, hshared⟩ := selectForm_of_legal h
  have hsel : selectForm s.cfg s.cfg.clsShared sub = .ok .sharedData := hshared sub
  refine ⟨fun hshort => exec_command_of_noop h (decodeFrame_of_short h hsel hshort hmax), ?_⟩
  rintro i lo hi extra rfl
  have hmin : minLength .sharedData ≤ (i :: lo :: hi :: extra).length + 1 := by simp [minLength]
  exact ⟨_, exec_command_of_form h (decodeFrame_of_select h hsel hmin hmax), sext16_u16leAt _ 2⟩

end Sys2Proof.Machine
end

section
/-! The frame table of R52 and the decoder: what a form's encoding decodes to, the bytes a form reads, and the statements of
spec/30_encoding.md that follow. -/

namespace Sys2Proof

section

variable {f g : List Byte} {k : FormKind}

/-- Every form reads its first operand byte. -/
theorem two_le_minLength (k : FormKind) : 2 ≤ minLength k := by
  cases k <;> decide

/-- The fifteen or ten bytes of a pixel frame are its operand. -/
theorem ofFn_u8At_cons {n : Nat} (x : Byte) (px : Vector Byte n) :
    (Vector.ofFn fun i => u8At (x :: px.toList) (1 + i.val)) = px := by
  ext i hi
  simp [u8At, Nat.add_comm 1 i, hi]

/-- A form other than TEXT reads its frame only below its minimum length (R47, R49). -/
theorem operandsOf_congr (hk : k ≠ .text) (h : ∀ i, i < minLength k → u8At f i = u8At g i) :
    operandsOf k f = operandsOf k g := by
  have hbyte {i : Nat} (hi : i < minLength k) : u8At f i = u8At g i := h i hi
  cases k
  case text => exact absurd rfl hk
  case pixels0 | pixels1 =>
    simp only [operandsOf]
    congr 2
    funext i
    exact hbyte (by simp only [minLength]; omega)
  case setTouch => rw [operandsOf, operandsOf, hbyte (by decide)]
  case setPull | setOutput | setEvent =>
    rw [operandsOf, operandsOf, hbyte (i := 1) (by decide), hbyte (i := 2) (by decide)]
  case setPwm | sharedData =>
    rw [operandsOf, operandsOf, u16leAt, u16leAt, hbyte (i := 1) (by decide), hbyte (i := 2) (by decide),
      hbyte (i := 2 + 1) (by decide)]
  case setServo =>
    simp only [operandsOf, u16leAt]
    rw [hbyte (i := 1) (by decide), hbyte (i := 2) (by decide), hbyte (i := 2 + 1) (by decide),
      hbyte (i := 5) (by decide), hbyte (i := 5 + 1) (by decide), hbyte (i := 7) (by decide), hbyte (i := 7 + 1) (by decide)]

/-- SET_SERVO does not read byte 4 (R49). -/
theorem operandsOf_setServo_set_four (f : List Byte) (b : Byte) :
    operandsOf .setServo (f.set 4 b) = operandsOf .setServo f := by
  have hbyte {i : Nat} (hi : 4 ≠ i) : u8At (f.set 4 b) i = u8At f i := by
    simp only [u8At, List.getD_eq_getElem?_getD, List.getElem?_set_ne hi]
  simp only [operandsOf, u16leAt]
  rw [hbyte (i := 1) (by decide), hbyte (i := 2) (by decide), hbyte (i := 2 + 1) (by decide), hbyte (i := 5) (by decide),
    hbyte (i := 5 + 1) (by decide), hbyte (i := 7) (by decide), hbyte (i := 7 + 1) (by decide)]

/-- Bytes after a frame's end do not change the bytes inside it. -/
theorem u8At_append {i : Nat} (h : i < f.length) (extra : List Byte) : u8At (f ++ extra) i = u8At f i := by
  simp only [u8At, List.getD_eq_getElem?_getD, List.getElem?_append_left h]

/-- The operands of a decoded form are inside the contract: a frame of at most 20 bytes holds at most 18 of text (R51). -/
theorem operandsOf_wellFormed (k : FormKind) (h : f.length ≤ 20) : (operandsOf k f).wellFormed = true := by
  cases k
  case text => simp only [operandsOf, Instr.wellFormed, List.length_drop, decide_eq_true_eq]; omega
  all_goals rfl

end

end Sys2Proof

namespace Sys2Proof.Machine

section

variable {c : Cfg} {i : Instr}

/-- A frame of at most 20 bytes whose header selects a form decodes to it where it has the form's minimum length. -/
theorem decodeFrame_cons_of_select (h : c.legal = true) {x : Byte} {body : List Byte} {k : FormKind}
    (hk : selectForm c (classOf x) (subOf x) = .ok k) (hmin : minLength k ≤ body.length + 1) (hmax : body.length + 1 ≤ 20) :
    decodeFrame c (x :: body) = .form (operandsOf k (x :: body)) := by
  have hd := decodeFrame_of_select h hk hmin hmax
  rwa [header_classOf_subOf] at hd

/-- The encoding of a well-formed form is a frame that decodes to it (R52). -/
theorem decodeFrame_of_encode (h : c.legal = true) (hf : i.isForm = true) (hw : i.wellFormed = true) :
    ∃ f, encode c i = some f ∧ decodeFrame c f = .form i := by
  obtain ⟨htext, hpixels0, hpixels1, hpull, htouch, houtput, hpwm, hservo, hevent, hshared⟩ := selectForm_of_legal h
  have hdecode {cls : BitVec 3} {sub : BitVec 5} {body : List Byte} {k : FormKind} (hk : selectForm c cls sub = .ok k)
      (hmin : minLength k ≤ body.length + 1) (hmax : body.length + 1 ≤ 20)
      (hi : operandsOf k (header cls sub :: body) = i) : decodeFrame c (header cls sub :: body) = .form i :=
    hi ▸ decodeFrame_of_select h hk hmin hmax
  cases i
  case command | sampleEnv | sampleOrient | sampleAnalog | hnorm | tilt | median | pinEventIn | buttonEventIn
      | gestureEventIn | sharedSet | sharedGet | reset => cases hf
  case displayText d text =>
    have hlen : text.length ≤ 18 := of_decide_eq_true hw
    exact ⟨_, rfl, hdecode htext (by simp [minLength]) (by simp only [List.length_cons]; omega) rfl⟩
  case displayPixels0 px =>
    exact ⟨_, rfl, hdecode hpixels0 (by simp [minLength]) (by simp) (congrArg Instr.displayPixels0 (ofFn_u8At_cons _ px))⟩
  case displayPixels1 px =>
    exact ⟨_, rfl, hdecode hpixels1 (by simp [minLength]) (by simp) (congrArg Instr.displayPixels1 (ofFn_u8At_cons _ px))⟩
  case pinSetPull p m => exact ⟨_, rfl, hdecode hpull le_rfl (by simp) rfl⟩
  case pinSetTouch p => exact ⟨_, rfl, hdecode htouch le_rfl (by simp) rfl⟩
  case pinSetOutput p v => exact ⟨_, rfl, hdecode houtput le_rfl (by simp) rfl⟩
  case pinSetEvent p type => exact ⟨_, rfl, hdecode hevent le_rfl (by simp) rfl⟩
  case pinSetPwm p w =>
    exact ⟨_, rfl, hdecode hpwm le_rfl (by simp) (congrArg (Instr.pinSetPwm p) (high_append_low w))⟩
  case pinSetServo p a r m =>
    exact ⟨_, rfl, hdecode hservo le_rfl (by simp) (by
      simpa only [high_append_low] using (rfl : operandsOf .setServo _ =
        .pinSetServo p (highByte a ++ lowByte a) (highByte r ++ lowByte r) (highByte m ++ lowByte m)))⟩
  case sharedData k v =>
    exact ⟨_, rfl, hdecode (hshared 0) le_rfl (by simp) (congrArg (Instr.sharedData k) (high_append_low v))⟩

end

/-- Settles O4: the ten headers select their forms, and each form's operands stand where the decoder reads them. -/
theorem decodeOfEncodeGivesTheForm : Obligations.DecodeOfEncodeGivesTheForm :=
  fun _ _ h hf hw => decodeFrame_of_encode h hf hw

/-- Settles O5: what the decoder answers is a form's operands, which are in the contract, so O4's lemma applies to them. -/
theorem decodedFormsAreWellFormed : Obligations.DecodedFormsAreWellFormed := by
  intro c f i h hd
  obtain ⟨x, rest, k, -, hmax, -, hmin, rfl⟩ := decodeFrame_form hd
  rw [legal_frameMax h] at hmax
  have hf := operandsOf_isForm k f
  have hw := operandsOf_wellFormed k hmax
  exact ⟨hf, hw, (two_le_minLength k).trans hmin, hmax, decodeFrame_of_encode h hf hw⟩

/-- Settles O6: each kind of unnamed byte or bit leaves the selected form and the bytes it reads as they were. -/
theorem unnamedBytesNeverChangeDecoding : Obligations.UnnamedBytesNeverChangeDecoding := by
  refine ⟨fun c f extra i h hd hi hmax => ?_, fun c f b p a r m h hd => ?_, fun c u v body h => ?_⟩
  · obtain ⟨x, rest, k, rfl, -, hk, hmin, rfl⟩ := decodeFrame_form hd
    have hne : k ≠ .text := by rintro rfl; exact hi _ _ rfl
    have hop : operandsOf k (x :: rest ++ extra) = operandsOf k (x :: rest) :=
      operandsOf_congr hne fun j hj => u8At_append (hj.trans_le hmin) extra
    rw [← hop]
    simp only [List.cons_append, List.length_cons, List.length_append] at hmax hmin ⊢
    exact decodeFrame_cons_of_select h hk (by rw [List.length_append]; omega) (by rw [List.length_append]; omega)
  · obtain ⟨x, rest, k, rfl, hmax, hk, hmin, hop⟩ := decodeFrame_form hd
    have hservo : k = .setServo := by
      cases k
      case setServo => rfl
      all_goals cases hop
    subst hservo
    rw [legal_frameMax h] at hmax
    rw [hop, ← operandsOf_setServo_set_four, List.set_cons_succ]
    exact decodeFrame_cons_of_select h hk (by simpa using hmin) (by simpa using hmax)
  · obtain ⟨-, -, -, -, -, -, -, -, -, hshared⟩ := selectForm_of_legal h
    simp only [decodeFrame, List.length_cons, classOf_header, subOf_header, hshared]
    rfl

/-- Settles O7: each word by the decoder's evaluation under binding T. -/
theorem writtenWordsDecodeToTheirForms : Obligations.WrittenWordsDecodeToTheirForms :=
  ⟨rfl, rfl, rfl, rfl, rfl, rfl⟩

/-- Settles O3: the writes of a field go to distinct offsets, so each byte reads back as written. -/
theorem writtenFieldsAreLittleEndian : Obligations.WrittenFieldsAreLittleEndian := by
  refine ⟨fun b i v hi => ?_, fun b i v hi k hk => ?_⟩
  · have hread : u16leAt (writeBytes b (put16le i v)) i = trunc16 v :=
      u16leAt_writeBytes (by simp [put16le]) (by simp [put16le]; omega) (List.Subset.refl _)
    rw [u16Field, hread, trunc16, BitVec.toNat_ofInt]
    omega
  · have hv : trunc32 v.toNat = v := BitVec.ofNat_toNat ..
    have hm : (i + k, byteOf v.toNat k) ∈ put32le i v := by simpa only [hv] using mem_put32le i v.toNat hk
    exact writeBytes_of_mem (by simp [put32le]) hm b (by omega)

end Sys2Proof.Machine
end

section
/-! The row an instruction runs, COMMAND included; what that row can write of the block's state, said once for all eight fields; the
shape of the state it keeps, and the statements about steps, RESET and writers that follow. -/

namespace Sys2Proof.Machine

/-- The block's state `b'` that row `i` can leave of `b`: the fields it writes, with where and how much it writes (R14 to R20). -/
inductive BlockWrite (c : Cfg) (b : Block) : Instr → Block → Prop
  | nothing {i : Instr} : BlockWrite c b i b
  | pull {p : Pin} {code : Byte} (m : PullMode) (hp : p ∈ c.validPins) :
      BlockWrite c b (.pinSetPull p code) { b with pull := mapSet p m b.pull }
  | rows012 {px : Vector Byte 15} (g : Grid) : BlockWrite c b (.displayPixels0 px) { b with grid := g }
  | rows34 {px : Vector Byte 10} (g : Grid) : BlockWrite c b (.displayPixels1 px) { b with grid := g }
  | sregData {k : Byte} {v : Word16} (r : Vector Word16 4) : BlockWrite c b (.sharedData k v) { b with sreg := r }
  | sregSet {k v : Int} (r : Vector Word16 4) : BlockWrite c b (.sharedSet k v) { b with sreg := r }
  | ring {buf : List Byte} {p : Pin} {ring : List Word16} (hp : p ∈ c.analogPins) (hlen : ring.length = c.nAnalog) :
      BlockWrite c b (.sampleAnalog buf p) { b with aring := mapSet p ring b.aring }
  | light {buf : List Byte} (l : Byte) : BlockWrite c b (.sampleEnv buf)
      { b with lring := b.lring.set b.lidx l, lidx := (b.lidx + 1) % c.nLight }
  | subscription {p : Pin} {type : Byte} (e : Subscription) (hp : p ∈ c.eventPins) :
      BlockWrite c b (.pinSetEvent p type) { b with sub := mapSet p e b.sub }
  | frame {i : Instr} {x : BufId} (ws : List (Nat × Byte)) (d : List Byte) (hi : IsEventEncoder i) (hx : x ∈ c.bufIds) :
      BlockWrite c b i { b with nbuf := mapSet x (writeBytes (mapGet x d b.nbuf) ws) b.nbuf }
  | reset : BlockWrite c b .reset (resetBlock c)

/-- The three telemetry operations, the only ones that ask (R22). -/
abbrev IsTelemetry (i : Instr) : Prop :=
  (∃ buf, i = .sampleEnv buf) ∨ (∃ buf, i = .sampleOrient buf) ∨ ∃ buf p, i = .sampleAnalog buf p

section

variable {c : Cfg} {b b' : Block} {i j : Instr} {s t : State}

/-- An instruction other than COMMAND runs its own rule. -/
theorem effective_of_ne_command (hc : ∀ f, i ≠ .command f) : effective c i = some i := by
  cases i
  case command f => exact absurd rfl (hc f)
  all_goals rfl

/-- COMMAND refuses a frame that the port cannot carry (R41, R91). -/
theorem exec_command_of_tooLong {f : List Byte} (h : s.cfg.legal = true) (hd : decodeFrame s.cfg f = .tooLong) :
    exec (.command f) s = .refused .frameTooLong := by
  simp only [exec, execCommand, transact_of_legal h, State.begin_cfg, hd]

/-- What a step of COMMAND comes to: a row that runs its own rule, itself or the form in its frame; or a silent end. -/
theorem exec_effective (ht : exec i s = .next t) : (effective s.cfg i = none ∧ Silent s t) ∨
    ∃ j, effective s.cfg i = some j ∧ exec j s = .next t ∧ (∀ f, j ≠ .command f) ∧ (j = i ∨ j.isForm = true) := by
  by_cases hc : ∃ f, i = .command f
  · obtain ⟨f, rfl⟩ := hc
    have h := legal_of_exec ht
    cases hd : decodeFrame s.cfg f with
    | form j =>
      have hj := decodeFrame_isForm hd
      rw [exec_command_of_form h hd] at ht
      exact .inr ⟨j, by simp [effective, hd], ht, (by rintro g rfl; cases hj), .inr hj⟩
    | noop r =>
      rw [exec_command_of_noop h hd] at ht
      cases ht
      exact .inl ⟨by simp [effective, hd], r, rfl⟩
    | tooLong =>
      rw [exec_command_of_tooLong h hd] at ht
      cases ht
  · have hc := not_exists.mp hc
    exact .inr ⟨i, effective_of_ne_command hc, ht, hc, .inl rfl⟩

theorem exec_of_effective (ht : exec i s = .next t) (hj : effective s.cfg i = some j) :
    exec j s = .next t ∧ (∀ f, j ≠ .command f) ∧ (j = i ∨ j.isForm = true) := by
  obtain ⟨hnone, -⟩ | ⟨j', hj', hrest⟩ := exec_effective ht
  · rw [hnone] at hj; cases hj
  · rw [hj'] at hj; cases hj; exact hrest

theorem BlockWrite.of_blk_eq (h : t.blk = s.blk) : BlockWrite c s.blk i t.blk := h ▸ .nothing

theorem Silent.blockWrite (h : Silent s t) : BlockWrite c s.blk i t.blk := by
  obtain ⟨r, rfl⟩ := h
  exact .nothing

theorem Notified.blockWrite (hi : IsEventEncoder i) (h : Notified s t) : BlockWrite s.cfg s.blk i t.blk := by
  obtain ⟨x, payload, df, ch, hx, -, -, rfl⟩ := h
  exact .frame _ _ hi hx

/-- An end that is silent or writes what the row can write, writes what it can write. -/
theorem blockWrite_of_silent_or {P : Prop} (h : Silent s t ∨ P) (hP : P → BlockWrite c s.blk i t.blk) :
    BlockWrite c s.blk i t.blk :=
  h.elim Silent.blockWrite hP

/-- What an instruction that runs its own rule can write of the block's state. -/
theorem exec_blockWrite (ht : exec i s = .next t) (hc : ∀ f, i ≠ .command f) : BlockWrite s.cfg s.blk i t.blk := by
  have e := exec_effect ht
  cases i
  case command f => exact absurd rfl (hc f)
  case displayText => cases e; exact .nothing
  case displayPixels0 => cases e; exact .rows012 _
  case displayPixels1 => cases e; exact .rows34 _
  case pinSetTouch | pinSetOutput | pinSetPwm | pinSetServo =>
    refine blockWrite_of_silent_or e ?_
    rintro rfl
    exact .nothing
  case pinSetPull =>
    refine blockWrite_of_silent_or e ?_
    rintro ⟨hp, m, rfl⟩
    exact .pull m hp
  case pinSetEvent =>
    refine blockWrite_of_silent_or e ?_
    rintro ⟨hp, x, xs, -, rfl⟩
    exact .subscription x hp
  case sharedData =>
    refine blockWrite_of_silent_or e ?_
    rintro ⟨g, rfl⟩
    exact .sregData g
  case sharedSet =>
    refine blockWrite_of_silent_or e ?_
    rintro ⟨g, rfl⟩
    exact .sregSet g
  case sampleEnv =>
    obtain ⟨xs, l, ws, -, -, -, hblk, -⟩ := e
    rw [hblk]
    exact .light l
  case sampleOrient =>
    obtain ⟨xs, ws, -, -, -, hblk, -⟩ := e
    exact .of_blk_eq hblk
  case sampleAnalog =>
    obtain ⟨xs, r, -, -, hblk, -⟩ | ⟨ring, ws, hp, hlen, -, -, hblk, -⟩ := e
    · exact .of_blk_eq hblk
    · rw [hblk]
      exact .ring hp hlen
  case hnorm | tilt | median | sharedGet =>
    obtain ⟨r, rfl⟩ := e
    exact .nothing
  case pinEventIn cid ev time =>
    exact blockWrite_of_silent_or e (Notified.blockWrite (.inl ⟨cid, ev, time, rfl⟩))
  case buttonEventIn src ev time => exact Notified.blockWrite (.inr (.inl ⟨src, ev, time, rfl⟩)) e
  case gestureEventIn code time => exact Notified.blockWrite (.inr (.inr ⟨code, time, rfl⟩)) e
  case reset => cases e; exact .reset

/-- The reset values have the shape of R14 to R20 under every legal configuration (R102, R103). -/
theorem resetBlock_inv (h : c.legal = true) : (resetBlock c).Inv c := by
  obtain ⟨-, -, hlight⟩ := legal_counts h
  refine ⟨?_, ?_, ?_, by simp [resetBlock], hlight, ?_, ?_, ?_⟩
  · simp [resetBlock, Function.comp_def]
  · simp [resetBlock, Function.comp_def]
  · simp [resetBlock]
  · simp [resetBlock, Function.comp_def]
  · simp [resetBlock, Function.comp_def]
  · simp [resetBlock]

/-- Every write of a row keeps the shape of the block's state: it writes at a key of the map, a whole ring, a slot of the light ring
or bytes of a buffer. -/
theorem BlockWrite.inv (hw : BlockWrite c b i b') (h : c.legal = true) (hb : b.Inv c) : b'.Inv c := by
  obtain ⟨hpull, haring, hrings, hlring, hlidx, hsub, hnbuf, hbufs⟩ := hb
  cases hw with
  | nothing | rows012 | rows34 | sregData | sregSet => exact ⟨hpull, haring, hrings, hlring, hlidx, hsub, hnbuf, hbufs⟩
  | pull m hp =>
    exact ⟨(keys_mapSet m (hpull ▸ hp)).trans hpull, haring, hrings, hlring, hlidx, hsub, hnbuf, hbufs⟩
  | subscription e hp =>
    exact ⟨hpull, haring, hrings, hlring, hlidx, (keys_mapSet e (hsub ▸ hp)).trans hsub, hnbuf, hbufs⟩
  | light l =>
    exact ⟨hpull, haring, hrings, by simpa using hlring, Nat.mod_lt _ (by omega), hsub, hnbuf, hbufs⟩
  | ring hp hlen =>
    refine ⟨hpull, (keys_mapSet _ (haring ▸ hp)).trans haring, fun e he => ?_, hlring, hlidx, hsub, hnbuf, hbufs⟩
    obtain he | rfl := mem_mapSet he
    · exact hrings e he
    · exact hlen
  | frame ws d hi hx =>
    have hkey := hnbuf ▸ hx
    refine ⟨hpull, haring, hrings, hlring, hlidx, hsub, (keys_mapSet _ hkey).trans hnbuf, fun e he => ?_⟩
    obtain he | rfl := mem_mapSet he
    · exact hbufs e he
    · exact (length_writeBytes _ ws).trans (hbufs _ (mapGet_mem d hkey))
  | reset => exact resetBlock_inv h

/-- The writers of each field, read off what a row can write (R14 to R20). -/
theorem BlockWrite.writers (hw : BlockWrite c b i b') (hr : i ≠ .reset) :
    (b'.pull ≠ b.pull → ∃ p m, i = .pinSetPull p m) ∧
    (b'.grid ≠ b.grid → (∃ px, i = .displayPixels0 px) ∨ ∃ px, i = .displayPixels1 px) ∧
    (b'.sreg ≠ b.sreg → (∃ k v, i = .sharedData k v) ∨ ∃ k v, i = .sharedSet k v) ∧
    (b'.aring ≠ b.aring → ∃ buf p, i = .sampleAnalog buf p) ∧
    (b'.lring ≠ b.lring ∨ b'.lidx ≠ b.lidx → ∃ buf, i = .sampleEnv buf) ∧
    (b'.sub ≠ b.sub → ∃ p e, i = .pinSetEvent p e) ∧
    (b'.nbuf ≠ b.nbuf → IsEventEncoder i) := by
  cases hw with
  | reset => exact absurd rfl hr
  | frame ws d hi hx => exact ⟨by simp, by simp, by simp, by simp, by simp, by simp, fun _ => hi⟩
  | _ => simp

/-- An operation that asks nothing leaves the configuration, the port, the lined-up answers and the count of queries. -/
theorem exec_after (ht : exec i s = .next t) (hi : ¬ IsTelemetry i) : t = s.after t.blk t.last := by
  have hdone (h : Silent s t ∨ DoneWithNothing s t) : t = s.after t.blk t.last := by
    obtain ⟨r, rfl⟩ | ⟨b, xs, rfl⟩ := h <;> rfl
  have hnotified (h : Notified s t) : t = s.after t.blk t.last := by
    obtain ⟨x, payload, df, ch, -, -, -, rfl⟩ := h
    rfl
  by_cases hf : i.isForm = true
  · exact hdone (form_silent_or_done hf ht)
  have e := exec_effect ht
  cases i
  case displayText | displayPixels0 | displayPixels1 | pinSetPull | pinSetTouch | pinSetOutput | pinSetPwm
      | pinSetServo | pinSetEvent | sharedData => exact absurd rfl hf
  case command => exact hdone (command_silent_or_done ht)
  case sharedSet => exact hdone (e.imp_right fun ⟨_, h⟩ => ⟨_, _, h⟩)
  case sampleEnv buf => exact absurd (.inl ⟨buf, rfl⟩) hi
  case sampleOrient buf => exact absurd (.inr (.inl ⟨buf, rfl⟩)) hi
  case sampleAnalog buf p => exact absurd (.inr (.inr ⟨buf, p, rfl⟩)) hi
  case hnorm | tilt | median | sharedGet =>
    obtain ⟨r, rfl⟩ := e
    rfl
  case pinEventIn => exact e.elim (fun h => hdone (.inl h)) hnotified
  case buttonEventIn | gestureEventIn => exact hnotified e
  case reset => cases e; rfl

/-- No operation writes the configuration or the port (R5, R13). -/
theorem exec_kept (ht : exec i s = .next t) : Kept s t := by
  by_cases hi : IsTelemetry i
  · have e := exec_effect ht
    obtain ⟨buf, rfl⟩ | ⟨buf, rfl⟩ | ⟨buf, p, rfl⟩ := hi
    · obtain ⟨xs, l, ws, -, -, hkept, -⟩ := e
      exact hkept
    · obtain ⟨xs, ws, -, -, hkept, -⟩ := e
      exact hkept
    · obtain ⟨xs, r, -, hkept, -⟩ | ⟨ring, ws, -, -, -, hkept, -⟩ := e <;> exact hkept
  · rw [exec_after ht hi]
    exact ⟨rfl, rfl⟩

/-- Every operation keeps the invariant. -/
theorem exec_inv (hs : s.Inv) (ht : exec i s = .next t) : t.Inv := by
  obtain ⟨hcfg, -⟩ := exec_kept ht
  rw [State.Inv, hcfg]
  obtain ⟨-, r, rfl⟩ | ⟨j, -, hj, hc, -⟩ := exec_effective ht
  · exact hs
  · exact (exec_blockWrite hj hc).inv (legal_of_exec ht) hs

/-- A step with an empty port does nothing. -/
theorem step_of_nil (hp : s.port = []) : step s = .next s := by
  simp only [step, State.fetch, hp]

/-- A step runs the first operation of the port, which leaves it. -/
theorem step_of_cons {op : Operation} {rest : List Operation} (hp : s.port = op :: rest) :
    step s = exec op.instr { s with port := rest } := by
  simp only [step, State.fetch, hp]

/-- What a step can do: nothing, or the operation that was first in the port. -/
theorem step_cases (ht : step s = .next t) : (s.port = [] ∧ t = s) ∨
    ∃ op rest, s.port = op :: rest ∧ exec op.instr { s with port := rest } = .next t := by
  cases hp : s.port with
  | nil =>
    rw [step_of_nil hp] at ht
    cases ht
    exact .inl ⟨rfl, rfl⟩
  | cons op rest => exact .inr ⟨op, rest, rfl, step_of_cons hp ▸ ht⟩

/-- A map that holds one value at each of its keys gives that value everywhere. -/
theorem mapGet_map_const {κ α : Type} [DecidableEq κ] (k : κ) (d : α) (l : List κ) :
    mapGet k d (l.map fun x => (x, d)) = d := by
  induction l with
  | nil => rfl
  | cons x l ih =>
    rw [List.map_cons, mapGet, ih]
    exact ite_self d

/-- RESET completes under every legal configuration, with every field at its reset value and an empty report (R102). -/
theorem exec_reset (h : s.cfg.legal = true) :
    exec .reset s = .next (s.after (resetBlock s.cfg) (doneReport [] .nothing)) := by
  rw [exec, execReset, transact_of_legal h]
  rfl

end

/-- Settles O46: a step is idle or runs one operation, and each operation writes within the shape. -/
theorem everyStepKeepsTheInvariant : Obligations.EveryStepKeepsTheInvariant := by
  intro s t hs ht
  obtain ⟨-, rfl⟩ | ⟨op, rest, -, ht⟩ := step_cases ht
  · exact hs
  · exact exec_inv (s := { s with port := rest }) hs ht

/-- Settles O45. -/
theorem invariantHoldsAtReset : Obligations.InvariantHoldsAtReset :=
  fun _ h => resetBlock_inv h

/-- Settles O44: each map of the reset state holds at its keys the value it gives elsewhere. -/
theorem resetRestoresEveryField : Obligations.ResetRestoresEveryField := by
  intro s h
  have hsub (p : Pin) : (s.after (resetBlock s.cfg) (doneReport [] .nothing)).subOf p = resetSubscription :=
    mapGet_map_const p resetSubscription _
  refine ⟨_, exec_reset h, rfl, resetBlock_inv h, fun p => mapGet_map_const p s.cfg.pullReset _, fun r c => ?_, fun k => ?_,
    fun p x hx => ?_, fun x hx => List.eq_of_mem_replicate hx, rfl, hsub, ?_, fun b k x hx => ?_⟩
  · simp [State.after, resetBlock]
  · simp [State.after, resetBlock]
  · have hring : (s.after (resetBlock s.cfg) (doneReport [] .nothing)).aringOf p = List.replicate s.cfg.nAnalog 0 :=
      mapGet_map_const p _ _
    exact List.eq_of_mem_replicate (hring ▸ hx)
  · simp only [subscriptionCount, hsub]
    exact List.countP_eq_zero.mpr (by simp [resetSubscription])
  · have hbuf : (s.after (resetBlock s.cfg) (doneReport [] .nothing)).nbufOf b = List.replicate s.cfg.notifyLen 0 :=
      mapGet_map_const b _ _
    rw [State.nbufByte, hbuf] at hx
    exact List.eq_of_mem_replicate (List.mem_of_getElem? hx)

/-- Settles O47: an operation keeps both, and a step takes the operation it runs from the port. -/
theorem configurationIsNeverWritten : Obligations.ConfigurationIsNeverWritten := by
  refine ⟨fun i s t ht => exec_kept ht, fun s t ht => ?_⟩
  obtain ⟨hnil, rfl⟩ | ⟨op, rest, hcons, ht⟩ := step_cases ht
  · exact ⟨rfl, by rw [hnil, List.tail_nil]⟩
  · obtain ⟨hcfg, hport⟩ := exec_kept ht
    exact ⟨hcfg, by rw [hport, hcons, List.tail_cons]⟩

/-- Settles O50: the row an instruction runs writes the fields of `BlockWrite` and no other. -/
theorem eachFieldHasItsOwnWriters : Obligations.EachFieldHasItsOwnWriters := by
  intro i j s t ht hj hr
  obtain ⟨htj, hc, -⟩ := exec_of_effective ht hj
  exact (exec_blockWrite htj hc).writers hr

/-- Settles O8: the port's first operation is run, and a COMMAND at its head runs the form in its frame. -/
theorem stepRunsTheNextOperation : Obligations.StepRunsTheNextOperation :=
  ⟨fun _ _ _ hp => step_of_cons hp, fun _ _ _ _ hp h hd => (step_of_cons hp).trans (exec_command_of_form h hd),
    fun _ hp => step_of_nil hp⟩

end Sys2Proof.Machine
end

section
/-! Which inputs complete and which are refused, COMMAND's checks in their order, and the statements of spec/40_command_parser.md and
spec/60_exceptions.md that follow. -/

namespace Sys2Proof.Machine

section

variable {c : Cfg} {i : Instr} {s t : State} {body : State → Out}

/-- Every operation is refused under an illegal configuration (R91). -/
theorem exec_of_illegal (i : Instr) (h : ¬ s.cfg.legal) : exec i s = .refused .illegalConfiguration := by
  cases i <;> rw [exec] <;> exact transact_of_illegal h

/-- A telemetry buffer below the operation's highest offset is refused (R25, R91). -/
theorem transact_of_bufferTooShort {buf : List Byte} {n : Nat} (h : s.cfg.legal = true) (hb : buf.length < n) :
    s.transact (fun s => if buf.length < n then .refused .bufferTooShort else body s) = .refused .bufferTooShort := by
  rw [transact_of_legal h, if_pos hb]

/-- A telemetry buffer that reaches the highest offset passes to the rest of the operation. -/
theorem transact_of_bufferLength {buf : List Byte} {n : Nat} (h : s.cfg.legal = true) (hb : n ≤ buf.length) :
    s.transact (fun s => if buf.length < n then .refused .bufferTooShort else body s) = body s.begin := by
  rw [transact_of_legal h, if_neg (Nat.not_lt.mpr hb)]

/-- MEDIAN refuses an empty list (R83). -/
theorem exec_median_nil (h : s.cfg.legal = true) : exec (.median []) s = .refused .emptyInput := by
  rw [exec, execMedian, transact_of_legal h, if_pos rfl]

/-- MEDIAN refuses a list with a negative element (R83). -/
theorem exec_median_negative (h : s.cfg.legal = true) {v : List Int} (hv : ∃ x ∈ v, x < 0) :
    exec (.median v) s = .refused .negativeSample := by
  have hany : v.any (· < 0) = true := by simpa using hv
  have hne : v ≠ [] := by rintro rfl; cases hany
  rw [exec, execMedian, transact_of_legal h, if_neg hne, if_pos hany]

/-- SAMPLE_ANALOG on a buffer long enough ends, in one of its two no-ops or with its samples. -/
theorem sampleAnalog_completes {buf : List Byte} (h : s.cfg.legal = true) (hb : 2 ≤ buf.length) (p : Pin) :
    ∃ t, exec (.sampleAnalog buf p) s = .next t := by
  rw [exec, execSampleAnalog, transact_of_bufferLength h hb]
  split
  · exact ⟨_, rfl⟩
  · dsimp only
    split <;> exact ⟨_, rfl⟩

/-- Every operand inside the contract completes (R91, R103). -/
theorem exec_completes (h : s.cfg.legal = true) (hw : i.wellFormed = true) : ∃ t, exec i s = .next t := by
  by_cases hf : i.isForm = true
  · exact form_completes hf h
  cases i <;> rw [exec]
  case displayText | displayPixels0 | displayPixels1 | pinSetPull | pinSetTouch | pinSetOutput | pinSetPwm
      | pinSetServo | pinSetEvent | sharedData => exact absurd rfl hf
  case command => exact command_completes h (of_decide_eq_true hw)
  case sampleEnv => exact ⟨_, transact_of_bufferLength h (of_decide_eq_true hw)⟩
  case sampleOrient => exact ⟨_, transact_of_bufferLength h (of_decide_eq_true hw)⟩
  case sampleAnalog p => exact sampleAnalog_completes h (of_decide_eq_true hw) p
  case median v =>
    obtain ⟨hne, hpos⟩ : v ≠ [] ∧ ∀ x ∈ v, 0 ≤ x := by simpa [Instr.wellFormed] using hw
    exact ⟨_, exec_median_next.mpr ⟨h, hne, by simpa using hpos, rfl⟩⟩
  case hnorm | tilt | buttonEventIn | gestureEventIn | reset => exact ⟨_, transact_of_legal h⟩
  case pinEventIn | sharedSet | sharedGet =>
    refine transact_completes h ?_
    split <;> exact ⟨_, rfl⟩

/-- A frame longer than 20 bytes is too long for the port, before anything of it is read (R41, R92). -/
theorem decodeFrame_of_long (h : c.legal = true) {f : List Byte} (hl : 20 < f.length) : decodeFrame c f = .tooLong := by
  unfold decodeFrame
  rw [if_pos (by rwa [legal_frameMax h])]

/-- The empty frame is short, whatever the codes (R53). -/
theorem decodeFrame_nil (c : Cfg) : decodeFrame c [] = .noop (.shortFrame 0) := rfl

/-- A header that selects no form rejects the frame with the header's label, whatever its length up to 20. -/
theorem decodeFrame_of_unselected (h : c.legal = true) {cls : BitVec 3} {sub : BitVec 5} {body : List Byte} {r : NoopReason}
    (hk : selectForm c cls sub = .error r) (hl : body.length + 1 ≤ 20) :
    decodeFrame c (header cls sub :: body) = .noop r := by
  have hmax := legal_frameMax h
  simp only [decodeFrame, List.length_cons, classOf_header, subOf_header, hk]
  rw [if_neg (by omega)]

/-- A class that is none of the three is unknown, whatever the subcommand (R43). -/
theorem selectForm_unknownClass {cls : BitVec 3} (hd : cls ≠ c.clsDisplay) (hp : cls ≠ c.clsPin) (hs : cls ≠ c.clsShared)
    (sub : BitVec 5) : selectForm c cls sub = .error (.unknownClass cls) := by
  rw [selectForm, if_neg hd, if_neg hp, if_neg hs]

/-- A subcommand that is none of DISPLAY's is unknown (R44). -/
theorem selectForm_display_unknownSub {sub : BitVec 5} (h : sub ∉ [c.subText, c.subPixels0, c.subPixels1]) :
    selectForm c c.clsDisplay sub = .error (.unknownSub sub) := by
  simp only [List.mem_cons, List.not_mem_nil, or_false, not_or] at h
  simp only [selectForm, selectDisplay, if_true, h, if_false]

/-- A subcommand that is none of PIN's is unknown: the class is not DISPLAY's (R45). -/
theorem selectForm_pin_unknownSub (hc : c.legal = true) {sub : BitVec 5}
    (h : sub ∉ [c.subSetPull, c.subSetTouch, c.subSetOutput, c.subSetPwm, c.subSetServo, c.subSetEvent]) :
    selectForm c c.clsPin sub = .error (.unknownSub sub) := by
  obtain ⟨⟨hclasses, -⟩, -⟩ := legal_iff.mp hc
  have hne : c.clsPin ≠ c.clsDisplay := by
    rintro heq
    simp [heq] at hclasses
  simp only [List.mem_cons, List.not_mem_nil, or_false, not_or] at h
  simp only [selectForm, selectPin, hne, if_true, h, if_false]

end

/-- Settles O48: the contract's inputs complete operation by operation, and each refusal is the first check that fails. -/
theorem exactlyContractInputsComplete : Obligations.ExactlyContractInputsComplete := by
  refine fun i s => ⟨exec_completes, fun h => exec_of_illegal i (by simp [h]), fun h => ⟨?_, ?_, ?_, ?_, ?_, ?_⟩⟩
  · rintro f rfl hl
    exact exec_command_of_tooLong h (decodeFrame_of_long h hl)
  · rintro buf rfl hl
    rw [exec]
    exact transact_of_bufferTooShort h hl
  · rintro buf rfl hl
    rw [exec]
    exact transact_of_bufferTooShort h hl
  · rintro buf p rfl hl
    rw [exec]
    exact transact_of_bufferTooShort h hl
  · rintro rfl
    exact exec_median_nil h
  · rintro v rfl hv
    exact exec_median_negative h hv

/-- Settles O9: the form is run by COMMAND as by itself, and a wire form always completes. -/
theorem commandRunsTheDecodedForm : Obligations.CommandRunsTheDecodedForm := by
  intro s f i h hd
  obtain ⟨t, ht⟩ := form_completes (decodeFrame_isForm hd) h
  exact ⟨t, (exec_command_of_form h hd).trans ht, ht⟩

/-- Settles O10: what the decoder answers at each check, in the order it makes them. -/
theorem commandRejectsInTheWrittenOrder : Obligations.CommandRejectsInTheWrittenOrder := by
  intro s f h
  refine ⟨fun hl => exec_command_of_tooLong h (decodeFrame_of_long h hl), ?_, ?_⟩
  · rintro rfl
    exact exec_command_of_noop h (decodeFrame_nil _)
  · rintro cls sub body rfl hl
    refine ⟨fun hd hp hs => ?_, ?_, ?_, fun k hk hshort => ?_⟩
    · exact exec_command_of_noop h (decodeFrame_of_unselected h (selectForm_unknownClass hd hp hs sub) hl)
    · rintro rfl hsub
      exact exec_command_of_noop h (decodeFrame_of_unselected h (selectForm_display_unknownSub hsub) hl)
    · rintro rfl hsub
      exact exec_command_of_noop h (decodeFrame_of_unselected h (selectForm_pin_unknownSub h hsub) hl)
    · exact exec_command_of_noop h (decodeFrame_of_short h hk hshort hl)

end Sys2Proof.Machine
end

section
/-! What the trace and the label of an operation can be: who emits each request, who asks and what a no-op leaves; the query port; the
statements of spec/10_state.md that follow. -/

namespace Sys2Proof.Machine

/-- The "emitted by" column of R23: the rows that emit a request. -/
def EmittedBy (i : Instr) : Request → Prop
  | .setDigitalValue p v => i = .pinSetOutput p v
  | .setAnalogValue p _ => ∃ w, i = .pinSetPwm p w
  | .setServoAngle p a => ∃ r c, i = .pinSetServo p a r c
  | .setServoRange p a r => ∃ c, i = .pinSetServo p a r c
  | .setServoCenter p a r c => i = .pinSetServo p a r c
  | .setPull p _ => (∃ code, i = .pinSetPull p code) ∨ ∃ buf, i = .sampleAnalog buf p
  | .enableTouch p => i = .pinSetTouch p
  | .enableEdgeDetection _ _ | .subscribe _ _ _ | .unsubscribe _ _ => ∃ p type, i = .pinSetEvent p type
  | .stopAnimation => (∃ d text, i = .displayText d text) ∨ ∃ px, i = .displayPixels1 px
  | .scrollText _ _ => ∃ d text, i = .displayText d text
  | .flush _ => ∃ px, i = .displayPixels1 px
  | .notify _ => IsEventEncoder i

section

variable {i j : Instr} {s t : State} {x : Interaction} {r : Request}

theorem Silent.trace_eq (h : Silent s t) : t.last.trace = [] := by
  obtain ⟨r, rfl⟩ := h
  rfl

theorem emittedBy_servoRequest (p : Pin) (a range c : Word16) :
    EmittedBy (.pinSetServo p a range c) (servoRequest p a range c) := by
  unfold servoRequest
  split
  · exact ⟨range, c, rfl⟩
  · split
    · exact ⟨c, rfl⟩
    · exact rfl

/-- An entry of the trace of a row: a question of a telemetry operation, or a request that the row emits. -/
def TraceEntry (i : Instr) (x : Interaction) : Prop :=
  (IsTelemetry i ∧ isRequest x = false) ∨ ∃ r, x = .emit r ∧ EmittedBy i r

theorem TraceEntry.of_emit (h : EmittedBy i r) (hx : x = .emit r) : TraceEntry i x := .inr ⟨r, hx, h⟩

theorem Silent.traceEntry (h : Silent s t) (hx : x ∈ t.last.trace) : TraceEntry i x := by
  rw [h.trace_eq] at hx
  cases hx

theorem Notified.traceEntry (hi : IsEventEncoder i) (h : Notified s t) (hx : x ∈ t.last.trace) : TraceEntry i x := by
  obtain ⟨b, payload, df, ch, -, -, -, rfl⟩ := h
  exact .of_emit (r := .notify ch) hi (List.mem_singleton.mp hx)

/-- An end that is silent or done with one request of the row's has only that request in its trace. -/
theorem traceEntry_of_silent_or {b : Block} {res : Result} (hr : EmittedBy i r)
    (h : Silent s t ∨ t = s.after b (doneReport [.emit r] res)) (hx : x ∈ t.last.trace) : TraceEntry i x := by
  obtain h | rfl := h
  · exact h.traceEntry hx
  · exact .of_emit hr (List.mem_singleton.mp hx)

/-- What the trace of an instruction that runs its own rule can hold (R22, R23). -/
theorem exec_traceEntry (ht : exec i s = .next t) (hc : ∀ f, i ≠ .command f) (hx : x ∈ t.last.trace) : TraceEntry i x := by
  have e := exec_effect ht
  cases i
  case command f => exact absurd rfl (hc f)
  case displayText d text =>
    cases e
    obtain rfl | rfl : x = .emit .stopAnimation ∨ x = .emit (.scrollText _ _) := by
      simpa [State.after, doneReport] using hx
    · exact .of_emit (r := .stopAnimation) (.inl ⟨d, text, rfl⟩) rfl
    · exact .of_emit (r := .scrollText _ _) ⟨d, text, rfl⟩ rfl
  case displayPixels0 | reset => cases e; cases hx
  case displayPixels1 px =>
    cases e
    obtain rfl | rfl : x = .emit .stopAnimation ∨ x = .emit (.flush _) := by
      simpa [State.after, doneReport] using hx
    · exact .of_emit (r := .stopAnimation) (.inr ⟨px, rfl⟩) rfl
    · exact .of_emit (r := .flush _) ⟨px, rfl⟩ rfl
  case pinSetTouch p => exact traceEntry_of_silent_or (r := .enableTouch p) rfl e hx
  case pinSetOutput p v => exact traceEntry_of_silent_or (r := .setDigitalValue p v) rfl e hx
  case pinSetPwm p w => exact traceEntry_of_silent_or (r := .setAnalogValue p _) ⟨w, rfl⟩ e hx
  case pinSetServo p a range c => exact traceEntry_of_silent_or (emittedBy_servoRequest p a range c) e hx
  case pinSetPull p code =>
    obtain h | ⟨-, m, h⟩ := e
    · exact h.traceEntry hx
    · exact traceEntry_of_silent_or (r := .setPull p m) (.inl ⟨code, rfl⟩) (.inr h) hx
  case pinSetEvent p type =>
    obtain h | ⟨-, sub, xs, hxs, rfl⟩ := e
    · exact h.traceEntry hx
    · obtain ⟨cid, h, d, k, rfl | rfl | rfl⟩ := hxs x hx
      · exact .of_emit (r := .subscribe cid h d) ⟨p, type, rfl⟩ rfl
      · exact .of_emit (r := .unsubscribe cid h) ⟨p, type, rfl⟩ rfl
      · exact .of_emit (r := .enableEdgeDetection _ _) ⟨p, type, rfl⟩ rfl
  case sharedData | sharedSet =>
    obtain h | ⟨g, rfl⟩ := e
    · exact h.traceEntry hx
    · cases hx
  case hnorm | tilt | median | sharedGet =>
    obtain ⟨res, rfl⟩ := e
    cases hx
  case sampleEnv buf =>
    obtain ⟨xs, l, ws, hxs, -, -, -, hlast⟩ := e
    rw [hlast] at hx
    exact .inl ⟨.inl ⟨buf, rfl⟩, hxs x hx⟩
  case sampleOrient buf =>
    obtain ⟨xs, ws, hxs, -, -, -, hlast⟩ := e
    rw [hlast] at hx
    exact .inl ⟨.inr (.inl ⟨buf, rfl⟩), hxs x hx⟩
  case sampleAnalog buf p =>
    have htel : IsTelemetry (.sampleAnalog buf p) := .inr (.inr ⟨buf, p, rfl⟩)
    have hpull (m : PullMode) : EmittedBy (.sampleAnalog buf p) (.setPull p m) := .inr ⟨buf, rfl⟩
    obtain ⟨xs, res, hxs, -, -, hlast⟩ | ⟨ring, ws, -, -, -, -, -, hlast⟩ := e
    · rw [hlast] at hx
      exact .inl ⟨htel, hxs x hx⟩
    · simp only [hlast, doneReport, List.mem_append, List.mem_cons, List.not_mem_nil, or_false, List.mem_map] at hx
      obtain ((rfl | rfl) | ⟨w, -, rfl⟩) | rfl := hx
      · exact .inl ⟨htel, rfl⟩
      · exact .of_emit (hpull _) rfl
      · exact .inl ⟨htel, rfl⟩
      · exact .of_emit (hpull _) rfl
  case pinEventIn cid ev time => exact e.elim (·.traceEntry hx) (Notified.traceEntry (.inl ⟨cid, ev, time, rfl⟩) · hx)
  case buttonEventIn src ev time => exact Notified.traceEntry (.inr (.inl ⟨src, ev, time, rfl⟩)) e hx
  case gestureEventIn code time => exact Notified.traceEntry (.inr (.inr ⟨code, time, rfl⟩)) e hx

/-- A request in the trace is emitted by the row that was run (R23). -/
theorem exec_emittedBy (ht : exec i s = .next t) (hj : effective s.cfg i = some j) (hx : .emit r ∈ t.last.trace) :
    EmittedBy j r := by
  obtain ⟨htj, hc, -⟩ := exec_of_effective ht hj
  obtain ⟨-, hquiet⟩ | ⟨r', hr', h⟩ := exec_traceEntry htj hc hx
  · cases hquiet
  · cases hr'
    exact h

/-- A labelled end wrote nothing and returned nothing, and its trace holds only questions (R9, R26). -/
theorem exec_noop (ht : exec i s = .next t) (hn : t.last.noop ≠ none) :
    t.blk = s.blk ∧ ∃ xs r, t.last = noopReport xs r ∧ ∀ x ∈ xs, isRequest x = false := by
  have hsilent {P : Prop} (h : Silent s t ∨ P) (hP : P → t.last.noop = none) :
      t.blk = s.blk ∧ ∃ xs r, t.last = noopReport xs r ∧ ∀ x ∈ xs, isRequest x = false := by
    obtain ⟨r, rfl⟩ | h := h
    · exact ⟨rfl, [], r, rfl, by simp⟩
    · exact absurd (hP h) hn
  have hdone (h : DoneWithNothing s t) : t.last.noop = none := by
    obtain ⟨b, xs, rfl⟩ := h
    rfl
  have hnotified (h : Notified s t) : t.last.noop = none := by
    obtain ⟨b, payload, df, ch, -, -, -, rfl⟩ := h
    rfl
  by_cases hf : i.isForm = true
  · exact hsilent (form_silent_or_done hf ht) hdone
  have e := exec_effect ht
  cases i
  case displayText | displayPixels0 | displayPixels1 | pinSetPull | pinSetTouch | pinSetOutput | pinSetPwm
      | pinSetServo | pinSetEvent | sharedData => exact absurd rfl hf
  case command => exact hsilent (command_silent_or_done ht) hdone
  case sharedSet => exact hsilent e fun ⟨_, h⟩ => hdone ⟨_, _, h⟩
  case pinEventIn => exact hsilent e hnotified
  case buttonEventIn | gestureEventIn => exact absurd (hnotified e) hn
  case hnorm | tilt | median | sharedGet =>
    obtain ⟨r, rfl⟩ := e
    exact absurd rfl hn
  case reset => cases e; exact absurd rfl hn
  case sampleEnv =>
    obtain ⟨xs, l, ws, -, -, -, -, hlast⟩ := e
    exact absurd (by rw [hlast]; rfl) hn
  case sampleOrient =>
    obtain ⟨xs, ws, -, -, -, -, hlast⟩ := e
    exact absurd (by rw [hlast]; rfl) hn
  case sampleAnalog =>
    obtain ⟨xs, r, hxs, -, hblk, hlast⟩ | ⟨ring, ws, -, -, -, -, -, hlast⟩ := e
    · exact ⟨hblk, xs, r, hlast, hxs⟩
    · exact absurd (by rw [hlast]; rfl) hn

/-- A wire form asks nothing. -/
theorem not_isTelemetry_of_isForm (hf : i.isForm = true) : ¬ IsTelemetry i := by
  rintro (⟨buf, rfl⟩ | ⟨buf, rfl⟩ | ⟨buf, p, rfl⟩) <;> cases hf

end

section

variable {κ α : Type} [DecidableEq κ] {ask : κ → State → α × State} {list : State → List (κ × α)}
  {withList : State → List (κ × α) → State} {free : Nat → κ → α} {entry : κ → α → Interaction}

/-- A way of asking that takes the first answer lined up, else the free one, and drops it from its list, obeys the rule of the query
port: the list's own lemmas say what is found and what is dropped. -/
theorem askRule_of (hask : ∀ q s, ask q s = ((mapFind? q (list s)).getD (free s.draws q),
      (withList s (dropReply q (list s))).asked (entry q ((mapFind? q (list s)).getD (free s.draws q)))))
    (hlist : ∀ s l x, list ((withList s l).asked x) = l) (hsame : ∀ s, withList s (list s) = s) :
    AskRule ask list withList free entry := by
  refine fun s q => ⟨fun v hv => ?_, fun l₁ v l₂ hl hq => ?_, fun hq => ?_, fun q' hq' => ?_⟩
  · rw [hask, hv, Option.getD_some]
  · rw [hask, hl, mapFind?_append hq, dropReply_append hq, Option.getD_some]
  · rw [hask, mapFind?_eq_none.mpr hq, dropReply_of_not_mem hq, hsame, Option.getD_none]
  · rw [hask, hlist, mapFind?_dropReply_other hq']

end

/-- Settles O49. -/
theorem noopsHaveNoEffect : Obligations.NoopsHaveNoEffect := by
  intro i s t ht hn
  obtain ⟨hblk, xs, r, hlast, hxs⟩ := exec_noop ht hn
  rw [hlast]
  exact ⟨hblk, rfl, rfl, hxs⟩

/-- Settles O51: the row that emits a flush is PIXELS_1, and its effect names the grid it flushes. -/
theorem onlyPixels1Flushes : Obligations.OnlyPixels1Flushes := by
  intro i s t g ht hx
  obtain ⟨-, h⟩ | ⟨j, hj, htj, -⟩ := exec_effective ht
  · rw [h.trace_eq] at hx
    cases hx
  · obtain ⟨px, rfl⟩ : ∃ px, j = .displayPixels1 px := exec_emittedBy ht hj hx
    cases exec_effect htj
    exact ⟨⟨px, hj⟩, by simpa [State.after, doneReport] using hx⟩

/-- Settles O52: three rows of the "emitted by" column. -/
theorem requestsHaveTheirOwnEmitters : Obligations.RequestsHaveTheirOwnEmitters := by
  intro i j s t r ht hj hx
  have h : EmittedBy j r := exec_emittedBy ht hj hx
  refine ⟨?_, ?_, ?_⟩
  · rintro ch rfl
    exact h
  · rintro (⟨c, k, d, rfl⟩ | ⟨c, k, rfl⟩ | ⟨p, k, rfl⟩) <;> exact h
  · rintro p m rfl
    exact h

/-- Settles O53: the row an instruction runs is itself or a wire form, so no telemetry. -/
theorem onlyTelemetryAsks : Obligations.OnlyTelemetryAsks := by
  intro i s t ht henv horient hanalog
  have hi : ¬ IsTelemetry i := by
    rintro (⟨buf, h⟩ | ⟨buf, h⟩ | ⟨buf, p, h⟩)
    · exact henv buf h
    · exact horient buf h
    · exact hanalog buf p h
  have hafter := exec_after ht hi
  refine ⟨by rw [hafter]; rfl, by rw [hafter]; rfl, fun x hx => ?_⟩
  obtain ⟨-, h⟩ | ⟨j, -, htj, hc, hij⟩ := exec_effective ht
  · rw [h.trace_eq] at hx
    cases hx
  · have hj : ¬ IsTelemetry j := by
      obtain rfl | hf := hij
      · exact hi
      · exact not_isTelemetry_of_isForm hf
    obtain ⟨htel, -⟩ | ⟨r, rfl, -⟩ := exec_traceEntry htj hc hx
    · exact absurd htel hj
    · rfl

/-- Settles O54: the five ways of asking have one shape. -/
theorem linedUpAnswersAreUsedOnce : Obligations.LinedUpAnswersAreUsedOnce :=
  ⟨askRule_of (fun _ _ => rfl) (fun _ _ _ => rfl) fun _ => rfl, askRule_of (fun _ _ => rfl) (fun _ _ _ => rfl) fun _ => rfl,
    askRule_of (fun _ _ => rfl) (fun _ _ _ => rfl) fun _ => rfl, askRule_of (fun _ _ => rfl) (fun _ _ _ => rfl) fun _ => rfl,
    askRule_of (fun _ _ => rfl) (fun _ _ _ => rfl) fun _ => rfl⟩

end Sys2Proof.Machine
end

section
/-! DISPLAY.TEXT and DISPLAY.PIXELS_1, run by themselves: the text up to its end, the cells PIXELS_1 stores and flushes, and the pixels
its flush sets; the statements of spec/41_display_compositor.md that follow. -/

namespace Sys2Proof.Machine

section

variable {s : State}

/-- A text without 0x00 is shown whole, and what stands at or after the 0x00 that ends it is not (R57). -/
theorem textOf_append {text rest : List Byte} (h : 0 ∉ text) (hr : rest = [] ∨ ∃ tail, rest = 0 :: tail) :
    textOf (text ++ rest) = text := by
  have hpos : ∀ b ∈ text, decide (b ≠ 0) = true := fun b hb => decide_eq_true (by rintro rfl; exact h hb)
  have hstop : rest.takeWhile (fun b => decide (b ≠ 0)) = [] := by
    obtain rfl | ⟨tail, rfl⟩ := hr <;> rfl
  rw [textOf, List.takeWhile_append_of_pos hpos, hstop, List.append_nil]

/-- A cell of rows 3 and 4 holds its byte of the write, and the other rows keep what they held (R33, R59). -/
theorem getElem_writeRows34 (px : Vector Byte 10) (g : Grid) (r c : Fin 5) : (writeRows34 px g)[r][c] =
    if h : 3 ≤ r.val then px[5 * (r.val - 3) + c.val] else g[r][c] := by
  simp [writeRows34]

theorem writeRows34_of_ge (px : Vector Byte 10) (g : Grid) {r : Fin 5} (c : Fin 5) (h : 3 ≤ r.val) :
    (writeRows34 px g)[r][c] = px[5 * (r.val - 3) + c.val] := by
  rw [getElem_writeRows34, dif_pos h]

theorem writeRows34_of_lt (px : Vector Byte 10) (g : Grid) {r : Fin 5} (c : Fin 5) (h : r.val < 3) :
    (writeRows34 px g)[r][c] = g[r][c] := by
  rw [getElem_writeRows34, dif_neg (Nat.not_le.mpr h)]

/-- DISPLAY.PIXELS_1 completes under every legal configuration: it changes the grid alone and flushes what it leaves. -/
theorem exec_displayPixels1 (h : s.cfg.legal = true) (px : Vector Byte 10) :
    exec (.displayPixels1 px) s = .next (s.after { s.blk with grid := writeRows34 px s.blk.grid }
      (doneReport [.emit .stopAnimation, .emit (.flush (writeRows34 px s.blk.grid))] .nothing)) := by
  rw [exec, execDisplayPixels1, transact_of_legal h]
  rfl

/-- A flush stands for 25 calls (R60). -/
theorem length_setPixels_flush (g : Grid) : (setPixels (.flush g)).length = 25 := rfl

/-- No two calls of a flush are alike: no two name the same cell. -/
theorem nodup_setPixels_flush (g : Grid) : (setPixels (.flush g)).Nodup := by
  have hcells : (setPixels (.flush g)).map (fun p => (p.y, p.x)) =
      (List.finRange 5).flatMap fun r => (List.finRange 5).map fun c => (r, c) := rfl
  refine List.Nodup.of_map (fun p => (p.y, p.x)) ?_
  rw [hcells]
  decide

/-- After PIXELS_1 the pixels set are those of its flush: the other request sets none. -/
theorem pixelsSet_flush (b : Block) (g : Grid) :
    (s.after b (doneReport [.emit .stopAnimation, .emit (.flush g)] .nothing)).pixelsSet = setPixels (.flush g) :=
  List.append_nil _

/-- No request but a flush sets a pixel (R60). -/
theorem setPixels_eq_nil {r : Request} (h : ∀ g, r ≠ .flush g) : setPixels r = [] := by
  cases r
  case flush g => exact absurd rfl (h g)
  all_goals rfl

/-- A trace without a flush sets no pixel (R60). -/
theorem pixelsSet_eq_nil {t : State} (h : ∀ g, Interaction.emit (.flush g) ∉ t.last.trace) : t.pixelsSet = [] := by
  refine List.flatMap_eq_nil_iff.mpr fun x hx => ?_
  cases x with
  | emit r => exact setPixels_eq_nil fun g hg => h g (hg ▸ hx)
  | _ => rfl

end

/-- Settles O12. -/
theorem textStopsTheAnimationThenScrolls : Obligations.TextStopsTheAnimationThenScrolls := by
  intro s d text rest h hzero hrest
  rw [exec_displayText h, textOf_append hzero hrest]

/-- Settles O14. -/
theorem pixels1WritesRowsThenFlushesTheGrid : Obligations.Pixels1WritesRowsThenFlushesTheGrid :=
  fun s px h => ⟨_, exec_displayPixels1 h px, fun _ c =>
    ⟨writeRows34_of_ge px s.blk.grid c, writeRows34_of_lt px s.blk.grid c⟩⟩

/-- Settles O15: the text between keeps the grid, so the flush carries rows 0 to 2 of the first frame and 3 and 4 of the second. -/
theorem twoPixelFramesFlushTheCombinedGrid : Obligations.TwoPixelFramesFlushTheCombinedGrid := by
  intro s px qx d text h
  refine ⟨_, _, _, writeRows34 qx (writeRows012 px s.blk.grid), exec_displayPixels0 h px, exec_displayText (by exact h) d text,
    exec_displayPixels1 (by exact h) qx, rfl, fun g' => by simp [State.after, doneReport], rfl, rfl, fun r c =>
    ⟨fun hr => ?_, writeRows34_of_ge qx _ c⟩⟩
  rw [writeRows34_of_lt qx _ c hr, writeRows012_of_lt px _ c hr]

/-- Settles O55: the calls of a flush are the cells of its grid, and no other request stands for a call. -/
theorem flushSetsEveryCellAtColumnAndRow : Obligations.FlushSetsEveryCellAtColumnAndRow := by
  refine ⟨fun s px h => ⟨_, exec_displayPixels1 h px, ?_⟩, fun i s t _ => pixelsSet_eq_nil⟩
  rw [pixelsSet_flush]
  refine ⟨length_setPixels_flush _, nodup_setPixels_flush _, fun x y b => ?_⟩
  rw [mem_setPixels_flush, ← getElem_writeRows34]
  simp [cellPixel]

end Sys2Proof.Machine
end

section
/-! The PIN forms run by themselves: their exact ends under a legal configuration, and the statements of spec/42_pin_commands.md that
follow. -/

namespace Sys2Proof.Machine

section

variable {c : Cfg} {s : State} {p : Pin}

/-- A form checked by its pin runs its body where the pin is valid (R61). -/
theorem transact_withValidPin {body : State → Out} (h : s.cfg.legal = true) (hp : p ∈ s.cfg.validPins) :
    s.transact (fun s => withValidPin p s body) = body s.begin := by
  rw [transact_of_legal h, withValidPin_begin hp]

/-- PIN.SET_PULL with a known code stores and requests its mode (R62). -/
theorem exec_pinSetPull {code : Byte} {m : PullMode} (h : s.cfg.legal = true) (hp : p ∈ s.cfg.validPins)
    (hm : decodePull s.cfg code = some m) : exec (.pinSetPull p code) s =
      .next (s.after { s.blk with pull := mapSet p m s.blk.pull } (doneReport [.emit (.setPull p m)] .nothing)) := by
  simp only [exec, execPinSetPull, transact_withValidPin h hp, State.begin_cfg, hm]
  rfl

/-- PIN.SET_PULL with an unknown code is a no-op BAD_MODE (R62). -/
theorem exec_pinSetPull_badMode {code : Byte} (h : s.cfg.legal = true) (hp : p ∈ s.cfg.validPins)
    (hm : decodePull s.cfg code = none) :
    exec (.pinSetPull p code) s = .next (s.after s.blk (noopReport [] (.badMode code))) := by
  simp only [exec, execPinSetPull, transact_withValidPin h hp, State.begin_cfg, hm]
  rfl

theorem decodePull_of_mem (h : c.legal = true) {code : Byte} {m : PullMode} (hm : (code, m) ∈ c.pullDecode) :
    decodePull c code = some m := by
  obtain ⟨-, -, ⟨hcodes, -⟩, -⟩ := legal_iff.mp h
  exact mapFind?_of_mem hcodes hm

theorem decodePull_eq_none {code : Byte} (hm : ∀ m, (code, m) ∉ c.pullDecode) : decodePull c code = none :=
  Option.eq_none_iff_forall_ne_some.mpr fun m h => hm m (mapFind?_mem h)

/-- PIN.SET_OUTPUT on a valid pin requests its byte (R64). -/
theorem exec_pinSetOutput (h : s.cfg.legal = true) (hp : p ∈ s.cfg.validPins) (v : Byte) :
    exec (.pinSetOutput p v) s = .next (s.after s.blk (doneReport [.emit (.setDigitalValue p v)] .nothing)) := by
  rw [exec, execPinSetOutput, transact_withValidPin h hp]
  rfl

/-- PIN.SET_PWM on a valid pin requests its clamped duty (R65). -/
theorem exec_pinSetPwm (h : s.cfg.legal = true) (hp : p ∈ s.cfg.validPins) (w : Word16) : exec (.pinSetPwm p w) s =
    .next (s.after s.blk (doneReport [.emit (.setAnalogValue p (clampDuty s.cfg w))] .nothing)) := by
  rw [exec, execPinSetPwm, transact_withValidPin h hp]
  rfl

theorem clampDuty_toNat (c : Cfg) (w : Word16) : (clampDuty c w).toNat = min w.toNat c.analogMax.toNat := by
  unfold clampDuty
  split <;> omega

/-- PIN.SET_SERVO on a valid pin requests the overload its operands select (R66). -/
theorem exec_pinSetServo (h : s.cfg.legal = true) (hp : p ∈ s.cfg.validPins) (angle range center : Word16) :
    exec (.pinSetServo p angle range center) s =
      .next (s.after s.blk (doneReport [.emit (servoRequest p angle range center)] .nothing)) := by
  rw [exec, execPinSetServo, transact_withValidPin h hp]
  rfl

/-- PIN.SET_EVENT with the code of a kind enables the pin's entry, subscribes its component and then enables detection (R69). -/
theorem exec_pinSetEvent_subscribe {cid : ComponentId} {type : Byte} {k : EventKind} (h : s.cfg.legal = true)
    (hp : (p, cid) ∈ s.cfg.identifierTable) (ht : decodeEventType s.cfg type = some (some k)) :
    exec (.pinSetEvent p type) s = .next (s.after { s.blk with sub := mapSet p { en := true, kind := k } s.blk.sub }
      (doneReport [.emit (.subscribe cid .pinHandler .dropIfBusy), .emit (.enableEdgeDetection p (some k))] .nothing)) := by
  have hc : componentOf s.cfg p = some cid := componentOf_of_mem h hp
  simp only [exec, execPinSetEvent, transact_of_legal h, State.begin_cfg, hc, ht]
  rfl

/-- PIN.SET_EVENT on an event pin with an unknown type is a no-op BAD_EVENT_TYPE (R67). -/
theorem exec_pinSetEvent_badType {cid : ComponentId} {type : Byte} (h : s.cfg.legal = true)
    (hp : (p, cid) ∈ s.cfg.identifierTable) (ht : decodeEventType s.cfg type = none) :
    exec (.pinSetEvent p type) s = .next (s.after s.blk (noopReport [] (.badEventType type))) := by
  have hc : componentOf s.cfg p = some cid := componentOf_of_mem h hp
  simp only [exec, execPinSetEvent, transact_of_legal h, State.begin_cfg, hc, ht]
  rfl

theorem decodeEventType_eq_none {type : Byte} (h : type ∉ [c.evtNone, c.evtEdge, c.evtPulse, c.evtTouch]) :
    decodeEventType c type = none := by
  simp only [List.mem_cons, List.not_mem_nil, or_false, not_or] at h
  simp only [decodeEventType, h, if_false]

/-- Each of the three subscription codes asks for its kind (R67). -/
theorem decodeEventType_of_mem (h : c.legal = true) {type : Byte} {k : EventKind}
    (hm : (type, k) ∈ [(c.evtEdge, EventKind.edge), (c.evtPulse, .pulse), (c.evtTouch, .touch)]) :
    decodeEventType c type = some (some k) := by
  obtain ⟨-, hedge, hpulse, htouch⟩ := decodeEventType_of_legal h
  simp only [List.mem_cons, Prod.mk.injEq, List.not_mem_nil, or_false] at hm
  obtain ⟨rfl, rfl⟩ | ⟨rfl, rfl⟩ | ⟨rfl, rfl⟩ := hm
  · exact hedge
  · exact hpulse
  · exact htouch

end

/-- Settles O16: what the code's look-up answers, and one written entry of the pull table. -/
theorem setPullPersistsAndRequestsTheMode : Obligations.SetPullPersistsAndRequestsTheMode := by
  refine fun s p code h hp => ⟨fun m hm => ?_, fun hm => exec_pinSetPull_badMode h hp (decodePull_eq_none hm)⟩
  exact ⟨_, exec_pinSetPull h hp (decodePull_of_mem h hm), rfl, mapGet_mapSet_self p s.cfg.pullReset m _,
    fun q hq => mapGet_mapSet_other hq s.cfg.pullReset m _⟩

/-- Settles O18. -/
theorem setOutputPassesTheByteUnchanged : Obligations.SetOutputPassesTheByteUnchanged :=
  fun _ _ v h hp => exec_pinSetOutput h hp v

/-- Settles O19. -/
theorem setPwmClampsTheDuty : Obligations.SetPwmClampsTheDuty :=
  fun s _ w h hp => ⟨_, clampDuty_toNat s.cfg w, exec_pinSetPwm h hp w⟩

/-- Settles O20: the overload is selected by the two tests for zero. -/
theorem setServoSelectsTheOverloadByZero : Obligations.SetServoSelectsTheOverloadByZero := by
  intro s p angle range center h hp
  rw [exec_pinSetServo h hp]
  refine ⟨fun hr => ?_, fun hr hc => ?_, fun hr hc => ?_⟩
  · rw [servoRequest, if_pos hr]
  · rw [servoRequest, if_neg hr, if_pos hc]
  · rw [servoRequest, if_neg hr, if_neg hc]

/-- Settles O21: the five forms share one check, and SET_EVENT's is the domain of the identifier table. -/
theorem pinFormsRejectUnacceptedPinsFirst : Obligations.PinFormsRejectUnacceptedPinsFirst := by
  refine fun s p h => ⟨fun hp i hi => ?_, fun hp type => exec_pinSetEvent_bad h hp type⟩
  obtain ⟨m, rfl⟩ | rfl | ⟨v, rfl⟩ | ⟨w, rfl⟩ | ⟨a, r, c, rfl⟩ := hi <;> rw [exec] <;>
    exact transact_withValidPin_bad h hp

/-- Settles O22. -/
theorem setEventSubscribes : Obligations.SetEventSubscribes := by
  intro s p cid type k h hp hk
  exact ⟨_, exec_pinSetEvent_subscribe h hp (decodeEventType_of_mem h hk), rfl, subOf_after_mapSet_self s p _ _,
    fun q hq => subOf_after_mapSet_other hq s _ _⟩

/-- Settles O23. -/
theorem setEventUnsubscribes : Obligations.SetEventUnsubscribes := by
  intro s p cid h hp
  exact ⟨⟨_, exec_pinSetEvent_evtNone h hp, rfl, subOf_after_mapSet_self s p _ _,
    fun q hq => subOf_after_mapSet_other hq s _ _⟩,
    fun type ht => exec_pinSetEvent_badType h hp (decodeEventType_eq_none ht)⟩

end Sys2Proof.Machine
end

section
/-! SHARED_SET and SHARED_GET inside and outside the store, and MEDIAN on its values in order; the statements of
spec/46_shared_registers.md and spec/45_median_filter.md that follow. -/

namespace Sys2Proof.Machine

section

variable {s : State}

/-- SHARED_SET on an index of the store writes the low 16 bits of its value to that register alone (R88). -/
theorem exec_sharedSet (h : s.cfg.legal = true) (k : Fin 4) (v : Int) : exec (.sharedSet k.val v) s =
    .next (s.after { s.blk with sreg := s.blk.sreg.set k (trunc16 v) } (doneReport [] .nothing)) := by
  simp only [exec, execSharedSet, transact_of_legal h, sregIndex_of k rfl]
  rfl

theorem exec_sharedSet_badIndex {idx : Int} (h : s.cfg.legal = true) (hi : idx < 0 ∨ 3 < idx) (v : Int) :
    exec (.sharedSet idx v) s = .next (s.after s.blk (noopReport [] (.badIndex idx))) := by
  simp only [exec, execSharedSet, transact_of_legal h, sregIndex_none hi]
  rfl

/-- Truncation to 16 bits keeps the value modulo 65536 (R8). -/
theorem dvd_sub_trunc16 (v : Int) : (65536 : Int) ∣ v - (trunc16 v).toInt := by
  rw [trunc16, BitVec.toInt_ofInt]
  exact Int.dvd_self_sub_bmod

end

/-- Settles O26: the two sides of the index check, and the written word by its range and residue. -/
theorem sharedSetTruncatesTheValue : Obligations.SharedSetTruncatesTheValue := by
  refine fun s idx v h => ⟨?_, fun hi => exec_sharedSet_badIndex h hi v⟩
  rintro k rfl
  have hlo := (trunc16 v).le_toInt
  have hhi := (trunc16 v).toInt_lt
  exact ⟨trunc16 v, exec_sharedSet h k v, by simpa using hlo, by omega, dvd_sub_trunc16 v⟩

/-- Settles O27: the two sides of the index check. -/
theorem sharedGetReturnsTheRegisterOrZero : Obligations.SharedGetReturnsTheRegisterOrZero := by
  refine fun s idx h => ⟨?_, fun hi => ?_⟩
  · rintro k rfl
    simp only [exec, execSharedGet, transact_of_legal h, sregIndex_of k rfl]
    rfl
  · simp only [exec, execSharedGet, transact_of_legal h, sregIndex_none hi]
    rfl

/-- Settles O28: the median does not depend on the order of its values, and is read off them in ascending order. -/
theorem medianIsTheMiddleOfTheSortedValues : Obligations.MedianIsTheMiddleOfTheSortedValues := by
  intro s values l h hne hpos hperm hsorted
  have hm := (medianOf_perm hperm).symm.trans (medianOf_sorted hsorted)
  have hlen := hperm.length_eq
  refine ⟨medianOf values, exec_median_next.mpr ⟨h, hne, by simpa using hpos, rfl⟩, fun k hk => ?_, fun k a b hk ha hb => ?_,
    medianOf_between hne⟩
  · rw [hm, hlen, hk, if_pos (by omega), show (2 * k + 1 - 1) / 2 = k by omega,
      List.getD_eq_getElem _ _ (by omega), List.getElem?_eq_getElem]
  · rw [hm, hlen, hk, if_neg (by omega), show (2 * k + 2) / 2 - 1 = k by omega, show (2 * k + 2) / 2 = k + 1 by omega,
      List.getD_eq_getElem?_getD, List.getD_eq_getElem?_getD, ha, hb]
    exact Int.fdiv_eq_ediv_of_nonneg _ (by norm_num)

end Sys2Proof.Machine
end

section
/-! The event encoders' exact ends, the bytes each frame puts where, and the statements of spec/43_event_encoder.md that follow. -/

namespace Sys2Proof.Machine

/-- `s` after an event encoder wrote the frame `ws` to buffer `b` and notified `ch` (R71). -/
def State.framed (s : State) (b : BufId) (ch : Channel) (ws : List (Nat × Byte)) : State :=
  s.after { s.blk with nbuf := mapSet b (writeBytes (s.nbufOf b) ws) s.blk.nbuf }
    { doneReport [.emit (.notify ch)] .nothing with bufWrites := ws.map fun w => (b, w.1, w.2) }

section

variable {c : Cfg} {s : State}

/-- The bytes of the buffers after a frame: what the frame names holds what it gave, every other byte is as it was (R36, R37). -/
theorem nbufByte_framed (hs : s.Inv) (h : s.cfg.legal = true) {b : BufId} (hb : b ∈ s.cfg.bufIds) (ch : Channel)
    {ws : List (Nat × Byte)} (hn : (ws.map Prod.fst).Nodup) (hl : ∀ w ∈ ws, w.1 < 20) :
    (∀ k v, (k, v) ∈ ws → (s.framed b ch ws).nbufByte b k = some v) ∧
    (∀ k, (∀ w ∈ ws, w.1 ≠ k) → (s.framed b ch ws).nbufByte b k = s.nbufByte b k) ∧
    ∀ b', b' ≠ b → ∀ k, (s.framed b ch ws).nbufByte b' k = s.nbufByte b' k :=
  nbufByte_written hs h hb hn hl _

theorem pinBuf_shared (h : c.eventBuffers = .shared) : pinBuf c = .evt ∧ pinChannel c = .event := by
  simp [pinBuf, pinChannel, h]

theorem pinBuf_separate (h : c.eventBuffers = .separate) : pinBuf c = .pin ∧ pinChannel c = .pinEvent := by
  simp [pinBuf, pinChannel, h]

theorem actionBuf_shared (h : c.eventBuffers = .shared) : actionBuf c = .evt ∧ actionChannel c = .event := by
  simp [actionBuf, actionChannel, h]

theorem actionBuf_separate (h : c.eventBuffers = .separate) : actionBuf c = .action ∧ actionChannel c = .actionEvent := by
  simp [actionBuf, actionChannel, h]

/-- PIN_EVENT_IN of a component in the identifier table writes its frame and notifies (R72). -/
theorem exec_pinEventIn {cid : ComponentId} {p : Pin} (h : s.cfg.legal = true) (hp : pinOfComponent s.cfg cid = some p)
    (ev : Int) (time : Nat) : exec (.pinEventIn cid ev time) s =
      .next (s.framed (pinBuf s.cfg) (pinChannel s.cfg) (pinEventFrame s.cfg p ev time)) := by
  simp only [exec, execPinEventIn, transact_of_legal h, State.begin_cfg, hp]
  rfl

/-- PIN_EVENT_IN of any other component is a no-op UNKNOWN_COMPONENT (R72). -/
theorem exec_pinEventIn_unknown {cid : ComponentId} (h : s.cfg.legal = true) (hp : pinOfComponent s.cfg cid = none)
    (ev : Int) (time : Nat) :
    exec (.pinEventIn cid ev time) s = .next (s.after s.blk (noopReport [] (.unknownComponent cid))) := by
  simp only [exec, execPinEventIn, transact_of_legal h, State.begin_cfg, hp]
  rfl

theorem pinOfComponent_eq_none {cid : ComponentId} (hp : ∀ p, (p, cid) ∉ c.identifierTable) :
    pinOfComponent c cid = none := by
  refine Option.eq_none_iff_forall_ne_some.mpr fun p hfound => ?_
  obtain ⟨⟨q, cid'⟩, hm, heq⟩ := List.mem_map.mp (mapFind?_mem hfound)
  cases heq
  exact hp _ hm

/-- BUTTON_EVENT_IN writes its frame and notifies (R73). -/
theorem exec_buttonEventIn (h : s.cfg.legal = true) (src : ComponentId) (ev : Int) (time : Nat) :
    exec (.buttonEventIn src ev time) s =
      .next (s.framed (actionBuf s.cfg) (actionChannel s.cfg) (buttonFrame s.cfg src ev time)) := by
  rw [exec, execButtonEventIn, transact_of_legal h]
  rfl

/-- GESTURE_EVENT_IN writes its frame and notifies (R74). -/
theorem exec_gestureEventIn (h : s.cfg.legal = true) (code : Int) (time : Nat) :
    exec (.gestureEventIn code time) s =
      .next (s.framed (actionBuf s.cfg) (actionChannel s.cfg) (gestureFrame s.cfg code time)) := by
  rw [exec, execGestureEventIn, transact_of_legal h]
  rfl

/-- The offsets of a PIN_EVENT frame (R72). -/
theorem offsets_pinEventFrame (c : Cfg) (p : Pin) (ev : Int) (time : Nat) :
    (pinEventFrame c p ev time).map Prod.fst = [0, 1, 2, 3, 4, 5, 19] := rfl

/-- The offsets of a button frame (R73). -/
theorem offsets_buttonFrame (c : Cfg) (src : ComponentId) (ev : Int) (time : Nat) :
    (buttonFrame c src ev time).map Prod.fst = [0, 1, 2, 3, 4, 5, 6, 19] := rfl

/-- The offsets of a gesture frame (R74). -/
theorem offsets_gestureFrame (c : Cfg) (code : Int) (time : Nat) :
    (gestureFrame c code time).map Prod.fst = [0, 1, 2, 3, 4, 5, 19] := rfl

/-- What the offsets of a frame say of each of its writes. -/
theorem forall_offset {P : Nat → Prop} {ws : List (Nat × Byte)} {l : List Nat} (hl : ws.map Prod.fst = l)
    (hP : ∀ k ∈ l, P k) : ∀ w ∈ ws, P w.1 :=
  fun _ hw => hP _ (hl ▸ List.mem_map_of_mem hw)

theorem buttonId_a (c : Cfg) : buttonId c c.buttonAId = 5 := if_pos rfl

theorem buttonId_b (h : c.legal = true) : buttonId c c.buttonBId = 11 := by
  obtain ⟨-, -, ⟨-, -, -, -, -, -, hne, -⟩, -⟩ := legal_iff.mp h
  rw [buttonId, if_neg hne.symm, if_pos rfl]

theorem buttonId_other {src : ComponentId} (ha : src ≠ c.buttonAId) (hb : src ≠ c.buttonBId) :
    buttonId c src = BitVec.ofInt 8 src := by
  rw [buttonId, if_neg ha, if_neg hb, trunc8]

end

/-- Settles O39: the frame's writes by their offsets, and the component's pin by the identifier table. -/
theorem pinEventWritesItsFrame : Obligations.PinEventWritesItsFrame := by
  refine fun s cid ev time h hs => ⟨fun p hp => ?_, fun hp => exec_pinEventIn_unknown h (pinOfComponent_eq_none hp) ev time⟩
  have hoff := offsets_pinEventFrame s.cfg p ev time
  obtain ⟨hin, hout, hother⟩ := nbufByte_framed hs h (pinBuf_mem s.cfg) (pinChannel s.cfg)
    (hoff ▸ by decide) (forall_offset hoff (P := (· < 20)) (by decide))
  refine ⟨_, _, _, exec_pinEventIn h (pinOfComponent_of_mem h hp) ev time, pinBuf_shared, pinBuf_separate, rfl, rfl, rfl, rfl,
    hin 0 p ?_, hin 1 (trunc8 ev) ?_, fun k hk => hin _ _ ?_, hin 19 s.cfg.dfPinEvent ?_, fun k hk hk' => hout k ?_, hother⟩
  · simp [pinEventFrame, put8]
  · simp [pinEventFrame, put8]
  · simp [pinEventFrame, mem_put32le 2 time hk]
  · simp [pinEventFrame, put8, discriminatorOffset]
  · exact forall_offset hoff (P := (· ≠ k)) (by simp; omega)

/-- Settles O40: the frame's writes by their offsets, the id and the event by what maps them. -/
theorem buttonEventWritesItsFrame : Obligations.ButtonEventWritesItsFrame := by
  intro s src ev time h hs
  obtain ⟨-, -, ⟨-, -, -, -, -, -, -, hmap, -⟩, -⟩ := legal_iff.mp h
  have hoff := offsets_buttonFrame s.cfg src ev time
  obtain ⟨hin, hout, hother⟩ := nbufByte_framed hs h (actionBuf_mem s.cfg) (actionChannel s.cfg)
    (hoff ▸ by decide) (forall_offset hoff (P := (· < 20)) (by decide))
  have hid := hin 1 (buttonId s.cfg src) (by simp [buttonFrame, put8])
  have hev := hin 2 (mappedCode s.cfg.buttonEventMap ev) (by simp [buttonFrame, put8])
  refine ⟨_, _, _, exec_buttonEventIn h src ev time, actionBuf_shared, actionBuf_separate, rfl, rfl, rfl, rfl,
    hin 0 s.cfg.actButton ?_, ?_, ?_, fun ha hb => ?_, fun e he => ?_, fun he => ?_, fun k hk => hin _ _ ?_,
    hin 19 s.cfg.dfActionEvent ?_, fun k hk hk' => hout k ?_, hother⟩
  · simp [buttonFrame, put8]
  · rintro rfl
    rw [hid, buttonId_a]
  · rintro rfl
    rw [hid, buttonId_b h]
  · rw [hid, buttonId_other ha hb]
  · rw [hev, mappedCode_of_mapsTo hmap he]
  · rw [hev, mappedCode_of_unmapped hmap he, trunc8]
  · simp [buttonFrame, mem_put32le 3 time hk]
  · simp [buttonFrame, put8, discriminatorOffset]
  · exact forall_offset hoff (P := (· ≠ k)) (by simp; omega)

/-- Settles O41: the frame's writes by their offsets, the code by what maps it. -/
theorem gestureEventWritesItsFrame : Obligations.GestureEventWritesItsFrame := by
  intro s code time h hs
  obtain ⟨-, -, ⟨-, -, -, -, -, -, -, -, hmap⟩, -⟩ := legal_iff.mp h
  have hoff := offsets_gestureFrame s.cfg code time
  obtain ⟨hin, hout, hother⟩ := nbufByte_framed hs h (actionBuf_mem s.cfg) (actionChannel s.cfg)
    (hoff ▸ by decide) (forall_offset hoff (P := (· < 20)) (by decide))
  have hcode := hin 1 (mappedCode s.cfg.gestureMap code) (by simp [gestureFrame, put8])
  refine ⟨_, _, _, exec_gestureEventIn h code time, actionBuf_shared, actionBuf_separate, rfl, rfl, rfl, rfl,
    hin 0 s.cfg.actGesture ?_, fun g hg => ?_, fun hg => ?_, fun k hk => hin _ _ ?_, hin 19 s.cfg.dfActionEvent ?_,
    fun k hk hk' => hout k ?_, hother⟩
  · simp [gestureFrame, put8]
  · rw [hcode, mappedCode_of_mapsTo hmap hg]
  · rw [hcode, mappedCode_of_unmapped hmap hg, trunc8]
  · simp [gestureFrame, mem_put32le 2 time hk]
  · simp [gestureFrame, put8, discriminatorOffset]
  · exact forall_offset hoff (P := (· ≠ k)) (by simp; omega)

end Sys2Proof.Machine
end

section
/-! The digital mask under lined-up answers and SAMPLE_ENV with the bytes it writes; the two statements of spec/44_telemetry.md that
follow. -/

namespace Sys2Proof.Machine

/-- The answers lined up for the questions DIGITAL_MASK may ask of pin `p` (R77). -/
structure DigitalAnswers (inp dig : Pin → Bool) (lvl : Pin → Int) (s : State) (p : Pin) : Prop where
  isInput : mapFind? (.isInput p) s.replies.bools = some (inp p)
  isDigital : mapFind? (.isDigital p) s.replies.bools = some (dig p)
  level : mapFind? (.getDigitalValue p) s.replies.ints = some (lvl p)

section Mask

variable {inp dig : Pin → Bool} {lvl : Pin → Int} {s : State} {p q : Pin}

/-- Questions about one pin leave the answers to those about another. -/
theorem DigitalAnswers.askBool (h : DigitalAnswers inp dig lvl s q) {b : BoolQuery} (hi : b ≠ .isInput q)
    (hd : b ≠ .isDigital q) : DigitalAnswers inp dig lvl (s.askBool b).2 q :=
  ⟨(mapFind?_dropReply_other hi.symm _).trans h.isInput, (mapFind?_dropReply_other hd.symm _).trans h.isDigital, h.level⟩

theorem level_askInt (h : p ≠ q) :
    mapFind? (.getDigitalValue q) (s.askInt (.getDigitalValue p)).2.replies.ints =
      mapFind? (.getDigitalValue q) s.replies.ints :=
  mapFind?_dropReply_other (by simpa using h.symm) _

theorem DigitalAnswers.askInt (h : DigitalAnswers inp dig lvl s q) (hpq : p ≠ q) :
    DigitalAnswers inp dig lvl (s.askInt (.getDigitalValue p)).2 q :=
  ⟨h.isInput, h.isDigital, (level_askInt hpq).trans h.level⟩

/-- Adding a pin's level keeps the bits of other pins clear. -/
theorem testBit_withLevel_clear {mask : Nat} {v : Int} (hp : mask.testBit p.toNat = false)
    (hq : mask.testBit q.toNat = false) (hpq : p ≠ q) : (withLevel p v mask).testBit q.toNat = false := by
  have hne : q.toNat ≠ p.toNat := fun h => hpq (BitVec.eq_of_toNat_eq h.symm)
  rw [testBit_withLevel hp, hq]
  simp [hne]

/-- The level part of the mask sets the bits of the pins whose level is not 0, and no other (R77). -/
theorem testBit_levelMask {qs : List Pin} {mask : Nat} (hn : qs.Nodup)
    (ha : ∀ q ∈ qs, mapFind? (.getDigitalValue q) s.replies.ints = some (lvl q))
    (hclear : ∀ q ∈ qs, mask.testBit q.toNat = false) (k : Nat) :
    (levelMask qs mask s).1.testBit k = true ↔ mask.testBit k = true ∨ ∃ q ∈ qs, k = q.toNat ∧ lvl q ≠ 0 := by
  induction qs generalizing mask s with
  | nil => simp [levelMask]
  | cons p qs ih =>
    obtain ⟨hp, hn⟩ := List.nodup_cons.mp hn
    have hne {q : Pin} (hq : q ∈ qs) : p ≠ q := by rintro rfl; exact hp hq
    have hlevel : (s.askInt (.getDigitalValue p)).1 = lvl p := askInt_of_reply (ha p List.mem_cons_self)
    have hpclear := hclear p List.mem_cons_self
    rw [levelMask, hlevel, ih hn (fun q hq => (level_askInt (hne hq)).trans (ha q (List.mem_cons_of_mem _ hq)))
      (fun q hq => testBit_withLevel_clear hpclear (hclear q (List.mem_cons_of_mem _ hq)) (hne hq)),
      testBit_withLevel hpclear]
    simp [or_assoc]

/-- The GPIO part of the mask sets the bits of the digital inputs whose level is not 0 (R77), and leaves the answers to every other
level question. -/
theorem testBit_gpioMask {ps : List Pin} {mask : Nat} (hn : ps.Nodup) (ha : ∀ p ∈ ps, DigitalAnswers inp dig lvl s p)
    (hclear : ∀ p ∈ ps, mask.testBit p.toNat = false) :
    (∀ k, (gpioMask ps mask s).1.testBit k = true ↔
      mask.testBit k = true ∨ ∃ p ∈ ps, k = p.toNat ∧ inp p = true ∧ dig p = true ∧ lvl p ≠ 0) ∧
    ∀ q, q ∉ ps → mapFind? (.getDigitalValue q) (gpioMask ps mask s).2.replies.ints =
      mapFind? (.getDigitalValue q) s.replies.ints := by
  induction ps generalizing mask s with
  | nil => simp [gpioMask]
  | cons p ps ih =>
    obtain ⟨hp, hn⟩ := List.nodup_cons.mp hn
    have hne {q : Pin} (hq : q ∈ ps) : p ≠ q := by rintro rfl; exact hp hq
    have hap := ha p List.mem_cons_self
    have hpclear := hclear p List.mem_cons_self
    have hin : (s.askBool (.isInput p)).1 = inp p := askBool_of_reply hap.isInput
    have hdig : ((s.askBool (.isInput p)).2.askBool (.isDigital p)).1 = dig p :=
      askBool_of_reply ((mapFind?_dropReply_other (by simp) _).trans hap.isDigital)
    have hasked (q : Pin) (hq : q ∈ ps) :
        DigitalAnswers inp dig lvl ((s.askBool (.isInput p)).2.askBool (.isDigital p)).2 q :=
      ((ha q (List.mem_cons_of_mem _ hq)).askBool (by simpa using hne hq) (by simp)).askBool (by simp)
        (by simpa using hne hq)
    have hclear' (q : Pin) (hq : q ∈ ps) := hclear q (List.mem_cons_of_mem _ hq)
    rw [gpioMask, hin, hdig]
    split
    next hboth =>
      have hlevel : (((s.askBool (.isInput p)).2.askBool (.isDigital p)).2.askInt (.getDigitalValue p)).1 = lvl p :=
        askInt_of_reply hap.level
      dsimp only
      rw [hlevel]
      obtain ⟨hbits, hkept⟩ := ih hn (fun q hq => (hasked q hq).askInt (hne hq))
        (fun q hq => testBit_withLevel_clear (v := lvl p) hpclear (hclear' q hq) (hne hq))
      refine ⟨fun k => ?_, fun q hq => ?_⟩
      · rw [hbits, testBit_withLevel hpclear]
        have hset : inp p = true ∧ dig p = true := by simpa using hboth
        simp [hset, or_assoc]
      · rw [List.mem_cons, not_or] at hq
        exact (hkept q hq.2).trans (level_askInt (Ne.symm hq.1))
    next hnot =>
      obtain ⟨hbits, hkept⟩ := ih hn hasked hclear'
      refine ⟨fun k => ?_, fun q hq => ?_⟩
      · have hunset : ¬ (k = p.toNat ∧ inp p = true ∧ dig p = true ∧ lvl p ≠ 0) :=
          fun ⟨_, hi, hd, _⟩ => hnot (by simp [hi, hd])
        rw [hbits]
        simp only [List.mem_cons, exists_eq_or_imp, hunset, false_or]
      · rw [List.mem_cons, not_or] at hq
        exact hkept q hq.2

/-- The digital mask's bits under lined-up answers: the GPIO pins' and the two buttons', which are no GPIO pins (R5, R77). -/
theorem testBit_digitalMask (h : s.cfg.legal = true) (ha : ∀ p ∈ s.cfg.gpioSet, DigitalAnswers inp dig lvl s p)
    (hb : ∀ q ∈ buttonPins, mapFind? (.getDigitalValue q) s.replies.ints = some (lvl q)) (k : Nat) :
    (digitalMask s).1.testBit k = true ↔
      (∃ p ∈ s.cfg.gpioSet, k = p.toNat ∧ inp p = true ∧ dig p = true ∧ lvl p ≠ 0) ∨
        ∃ q ∈ buttonPins, k = q.toNat ∧ lvl q ≠ 0 := by
  obtain ⟨-, ⟨-, -, -, -, -, -, hn, -⟩, -⟩ := legal_iff.mp h
  have hbutton {q : Pin} (hq : q ∈ buttonPins) : q ∉ s.cfg.gpioSet := by
    intro hg
    obtain ⟨-, h5, h11⟩ := gpioSet_of_legal h hg
    have hq : q = 5 ∨ q = 11 := by simpa [buttonPins] using hq
    exact hq.elim h5 h11
  obtain ⟨hbits, hkept⟩ := testBit_gpioMask (mask := 0) hn ha (by simp)
  rw [digitalMask, testBit_levelMask (by decide) (fun q hq => (hkept q (hbutton hq)).trans (hb q hq)) (fun q hq => ?_),
    hbits]
  · simp
  · rw [Bool.eq_false_iff, ne_eq, hbits]
    rintro (h0 | ⟨p, hp, hpq, -⟩)
    · simp at h0
    · exact hbutton hq (BitVec.eq_of_toNat_eq hpq ▸ hp)

end Mask

section Operations

variable {s : State} {buf : List Byte}

/-- The median of values in a range lies in it. -/
theorem medianOf_mem_range {v : List Int} {lo hi : Int} (hne : v ≠ []) (h : ∀ x ∈ v, lo ≤ x ∧ x ≤ hi) :
    lo ≤ medianOf v ∧ medianOf v ≤ hi := by
  obtain ⟨⟨a, ha, hle⟩, b, hb, hge⟩ := medianOf_between hne
  exact ⟨(h a ha).1.trans hle, hge.trans (h b hb).2⟩

/-- The median of words is a word. -/
theorem medianOf_words {w : Nat} {ring : List (BitVec w)} (hne : ring ≠ []) :
    0 ≤ medianOf (ring.map fun x => (x.toNat : Int)) ∧ medianOf (ring.map fun x => (x.toNat : Int)) ≤ 2 ^ w - 1 := by
  refine medianOf_mem_range (by simpa using hne) fun x hx => ?_
  obtain ⟨b, -, rfl⟩ := List.mem_map.mp hx
  have hlt : (b.toNat : Int) < 2 ^ w := by exact_mod_cast b.isLt
  omega

theorem toNat_trunc8_satU8 (v : Int) : ((trunc8 (satU8 v)).toNat : Int) = max 0 (min 255 v) :=
  toNat_trunc8 (by unfold satU8; omega) (by unfold satU8; omega)

/-- The offsets of SAMPLE_ENV's six bytes (R76). -/
theorem offsets_envFields (mask : Nat) (light temp : Int) :
    (envFields mask light temp).map Prod.fst = [0, 1, 2, 3, 4, 5] := rfl

/-- The bytes of a SAMPLE_ENV buffer (R76, R78). -/
theorem writeBytes_envFields (mask : Nat) (light temp : Int) (hb : 6 ≤ buf.length) :
    let b := writeBytes buf (envFields mask light temp);
    (∀ k, k < 4 → b[k]? = some (byteOf mask k)) ∧ b[4]? = some (trunc8 (satU8 light)) ∧
    b[5]? = some (trunc8 (satU8 (temp + 128))) ∧ ∀ k, 6 ≤ k → b[k]? = buf[k]? := by
  have hoff := offsets_envFields mask light temp
  have hn : ((envFields mask light temp).map Prod.fst).Nodup := hoff ▸ by decide
  refine ⟨fun k hk => ?_, ?_, ?_, fun k hk => ?_⟩
  · refine writeBytes_of_mem hn ?_ buf (by omega)
    have hm := mem_put32le 0 mask hk
    rw [Nat.zero_add] at hm
    simp [envFields, hm]
  · exact writeBytes_of_mem hn (by simp [envFields, put8]) buf (by omega)
  · exact writeBytes_of_mem hn (by simp [envFields, put8, temp8]) buf (by omega)
  · exact writeBytes_other (forall_offset hoff (P := (· ≠ k)) (by simp; omega)) buf

/-- SAMPLE_ENV on a buffer long enough: the mask's questions, the light and the temperature, the fresh sample in the ring, and the six
bytes (R76, R85). -/
theorem exec_sampleEnv (h : s.cfg.legal = true) (hb : 6 ≤ buf.length) : ∃ (l : Byte) (temp : Int) (t : State),
    exec (.sampleEnv buf) s = .next t ∧ Kept s t ∧
    t.last = doneReport ((digitalMask s.begin).2.last.trace ++ [.askLight .readLightLevel l, .askInt .getTemperature temp])
      (.buffer (writeBytes buf (envFields (digitalMask s.begin).1
        (medianOf ((s.blk.lring.set s.blk.lidx l).map fun x => (x.toNat : Int))) temp))) ∧
    t.blk = { s.blk with lring := s.blk.lring.set s.blk.lidx l, lidx := (s.blk.lidx + 1) % s.cfg.nLight } := by
  obtain ⟨xs, hx⟩ := digitalMask_asked s.begin
  let light := (digitalMask s.begin).2.askLight .readLightLevel
  let push := lchPush light.1 light.2
  let temp := push.2.askInt .getTemperature
  have hexec : exec (.sampleEnv buf) s =
      temp.2.finish (.buffer (writeBytes buf (envFields (digitalMask s.begin).1 push.1 temp.1))) := by
    rw [exec, execSampleEnv]
    exact transact_of_bufferLength h hb
  have hblk : light.2.blk = s.blk := hx.blk
  have hcfg : light.2.cfg = s.cfg := hx.cfg
  have hmedian : push.1 = medianOf ((s.blk.lring.set s.blk.lidx light.1).map fun x => (x.toNat : Int)) := by
    rw [← hblk]
    rfl
  have hring : push.2.blk =
      { s.blk with lring := s.blk.lring.set s.blk.lidx light.1, lidx := (s.blk.lidx + 1) % s.cfg.nLight } := by
    rw [← hblk, ← hcfg]
    rfl
  have hlast : temp.2.last = { Report.empty with trace := (digitalMask s.begin).2.last.trace ++
      [.askLight .readLightLevel light.1, .askInt .getTemperature temp.1] } := by
    show ({ (digitalMask s.begin).2.last with trace := ((digitalMask s.begin).2.last.trace ++ [_]) ++ [_] } : Report) = _
    rw [hx.last, List.append_assoc]
    rfl
  refine ⟨light.1, temp.1, _, hexec, ⟨hx.cfg, hx.port⟩, ?_, hring⟩
  rw [← hmedian, hlast]
  rfl

end Operations

/-- Settles O31: bit by bit, the GPIO part and the button part of the mask; no pin of either is 32 or above. -/
theorem digitalMaskHasOneBitPerPin : Obligations.DigitalMaskHasOneBitPerPin := by
  intro s inp dig lvl h hbools hlevels
  have hbits (k : Nat) := testBit_digitalMask h
    (fun p hp => ⟨(hbools p hp).1, (hbools p hp).2, hlevels p (.inl hp)⟩)
    (fun q hq => hlevels q (.inr (by simpa [buttonPins] using hq))) k
  refine ⟨Nat.lt_pow_two_of_testBit _ fun k hk => ?_, fun p => ?_⟩
  · rw [Bool.eq_false_iff, ne_eq, hbits]
    rintro (⟨p, hp, rfl, -⟩ | ⟨q, hq, rfl, -⟩)
    · exact absurd (gpioSet_of_legal h hp).1 (by omega)
    · have hq : q = 5 ∨ q = 11 := by simpa [buttonPins] using hq
      obtain rfl | rfl := hq <;> exact absurd hk (by decide)
  · have hpin (q : Pin) : p.toNat = q.toNat ↔ p = q := BitVec.toNat_inj
    simp only [hbits, hpin, buttonPins]
    simp

/-- Settles O32: the light ring is not empty, so the median of its bytes is a byte. -/
theorem sampleEnvWritesSixBytesAndPushesLight : Obligations.SampleEnvWritesSixBytesAndPushesLight := by
  intro s buf h hs hb
  obtain ⟨l, temp, t, ht, ⟨hcfg, hport⟩, hlast, hblk⟩ := exec_sampleEnv h hb
  obtain ⟨-, -, -, hlring, -⟩ := hs
  obtain ⟨-, -, hlight⟩ := legal_counts h
  have hne : s.blk.lring.set s.blk.lidx l ≠ [] := by
    rw [ne_eq, ← List.length_eq_zero_iff, List.length_set]
    omega
  obtain ⟨hmask, hmedian, htemp, hrest⟩ := writeBytes_envFields (digitalMask s.begin).1
    (medianOf ((s.blk.lring.set s.blk.lidx l).map fun x => (x.toNat : Int))) temp hb
  obtain ⟨hlo, hhi⟩ : 0 ≤ medianOf ((s.blk.lring.set s.blk.lidx l).map fun x => (x.toNat : Int)) ∧
    medianOf ((s.blk.lring.set s.blk.lidx l).map fun x => (x.toNat : Int)) ≤ 255 := medianOf_words hne
  refine ⟨l, temp, _, t, ht, hlast, hcfg, hport, hblk, length_writeBytes _ _, hmask, ⟨_, hmedian, ?_⟩,
    ⟨_, htemp, toNat_trunc8_satU8 _⟩, hrest⟩
  rw [toNat_trunc8_satU8]
  omega

end Sys2Proof.Machine
end

section
/-! SAMPLE_ORIENT and SAMPLE_ANALOG with the fields they write, HNORM, and TILT on the real numbers; the statements of
spec/44_telemetry.md that follow. -/

namespace Sys2Proof.Machine

section Fields

variable {s : State} {buf : List Byte} {ws : List (Nat × Byte)} {i : Nat} {v : Int}

/-- A saturated signed field of a frame reads back as the saturation of its value (R8, R9). -/
theorem s16Field_writeBytes (hn : (ws.map Prod.fst).Nodup) (hb : ∀ w ∈ ws, w.1 < buf.length)
    (hm : put16le i (satS16 v) ⊆ ws) : s16Field (writeBytes buf ws) i = max (-32768) (min 32767 v) := by
  rw [s16Field, u16leAt_writeBytes hn hb hm, toInt_trunc16_satS16]

/-- A saturated unsigned field of a frame reads back as the saturation of its value (R8, R9). -/
theorem u16Field_writeBytes (hn : (ws.map Prod.fst).Nodup) (hb : ∀ w ∈ ws, w.1 < buf.length)
    (hm : put16le i (satU16 v) ⊆ ws) : u16Field (writeBytes buf ws) i = max 0 (min 65535 v) := by
  rw [u16Field, u16leAt_writeBytes hn hb hm, toNat_trunc16_satU16]

/-- An unsigned field whose value is a 16-bit number reads back as that number. -/
theorem u16Field_put16le (hb : i + 1 < buf.length) (h₀ : 0 ≤ v) (h₁ : v < 65536) :
    u16Field (writeBytes buf (put16le i v)) i = v := by
  have hread : u16leAt (writeBytes buf (put16le i v)) i = trunc16 v :=
    u16leAt_writeBytes (by simp [put16le]) (by simp [put16le]; omega) (List.Subset.refl _)
  rw [u16Field, hread, trunc16, BitVec.toNat_ofInt]
  omega

/-- The offsets of SAMPLE_ORIENT's eighteen bytes (R79). -/
theorem offsets_orientFields (c : Cfg) (pr rr : RealNum) (ax ay az h mx my mz : Int) :
    (orientFields c pr rr ax ay az h mx my mz).map Prod.fst = List.range 18 := rfl

/-- A pitch or roll field is `P_ROUND` of a thousand times the radians, saturated (R79). -/
theorem angleField_eq (c : Cfg) (θ : RealNum) : angleField c θ = satS16 (roundOf c (1000 * angleReal θ)) := by
  rw [angleField, roundReal_eq, exactToReal_scale, exactToReal_angle]
  norm_num

/-- HNORM by its two conditions (R80). -/
theorem headingNorm_eq (h : Int) (facedown : Bool) : headingNorm h facedown =
    if facedown = true then (if h ≤ 180 then 180 - h else 540 - h) else h := by
  unfold headingNorm
  cases facedown
  · rfl
  · simp only [Bool.not_true, Bool.false_eq_true, if_false, if_true]
    split <;> omega

/-- SAMPLE_ORIENT on a buffer long enough: its nine questions and its fields, with no state changed (R79). -/
theorem exec_sampleOrient (h : s.cfg.legal = true) (hb : 18 ≤ buf.length) :
    ∃ (pr rr : RealNum) (ax ay az hd mx my mz : Int) (t : State), exec (.sampleOrient buf) s = .next t ∧
      t.last = doneReport [.askReal .getPitchRadians pr, .askReal .getRollRadians rr, .askInt .getAccelX ax,
        .askInt .getAccelY ay, .askInt .getAccelZ az, .askInt .getCompassHeading hd, .askInt .getCompassX mx,
        .askInt .getCompassY my, .askInt .getCompassZ mz]
        (.buffer (writeBytes buf (orientFields s.cfg pr rr ax ay az hd mx my mz))) ∧
      Kept s t ∧ t.blk = s.blk := by
  let pr := s.begin.askReal .getPitchRadians
  let rr := pr.2.askReal .getRollRadians
  let ax := rr.2.askInt .getAccelX
  let ay := ax.2.askInt .getAccelY
  let az := ay.2.askInt .getAccelZ
  let hd := az.2.askInt .getCompassHeading
  let mx := hd.2.askInt .getCompassX
  let my := mx.2.askInt .getCompassY
  let mz := my.2.askInt .getCompassZ
  have hexec : exec (.sampleOrient buf) s = mz.2.finish (.buffer (writeBytes buf
      (orientFields s.cfg pr.1 rr.1 ax.1 ay.1 az.1 hd.1 mx.1 my.1 mz.1))) := by
    rw [exec, execSampleOrient]
    exact transact_of_bufferLength h hb
  have hangles := (askReal_asked .getPitchRadians s.begin).trans (askReal_asked .getRollRadians pr.2)
  have haccel := ((askInt_asked .getAccelX rr.2).trans (askInt_asked .getAccelY ax.2)).trans (askInt_asked .getAccelZ ay.2)
  have hcompass := (((askInt_asked .getCompassHeading az.2).trans (askInt_asked .getCompassX hd.2)).trans
    (askInt_asked .getCompassY mx.2)).trans (askInt_asked .getCompassZ my.2)
  have hasked := (hangles.trans haccel).trans hcompass
  refine ⟨pr.1, rr.1, ax.1, ay.1, az.1, hd.1, mx.1, my.1, mz.1, _, hexec, ?_, ⟨hasked.cfg, hasked.port⟩, hasked.blk⟩
  show ({ mz.2.last with result := _ } : Report) = _
  rw [hasked.last]
  rfl

/-- SAMPLE_ANALOG on an analog pin that is an input: the samples between pull-none and the pin's own pull, the ring made of them and
their median in the buffer (R82, R84). -/
theorem exec_sampleAnalog_input {p : Pin} (h : s.cfg.legal = true) (hb : 2 ≤ buf.length) (hp : p ∈ s.cfg.analogPins)
    (hin : mapFind? (.isInput p) s.replies.bools = some true) : ∃ (ring : List Word16) (t : State),
    exec (.sampleAnalog buf p) s = .next t ∧ Kept s t ∧ ring.length = s.cfg.nAnalog ∧
    t.last = doneReport ([.askBool (.isInput p) true, .emit (.setPull p .none)] ++
      ring.map (fun w => Interaction.askAnalog (.getAnalogValue p) w) ++ [.emit (.setPull p (s.pullOf p))])
      (.buffer (writeBytes buf (put16le 0 (medianOf (ring.map fun w => (w.toNat : Int)))))) ∧
    t.blk = { s.blk with aring := mapSet p ring s.blk.aring } := by
  have hask : (s.begin.askBool (.isInput p)).1 = true := askBool_of_reply hin
  let u := (s.begin.askBool (.isInput p)).2.emit (.setPull p .none)
  let samples := takeSamples p s.cfg.nAnalog u
  have hasked : Asked u samples.2 (samples.1.map fun w => Interaction.askAnalog (.getAnalogValue p) w) :=
    takeSamples_asked p s.cfg.nAnalog u
  have hpull : (achFill p u).2.pullOf p = s.pullOf p := by
    show mapGet p samples.2.cfg.pullReset samples.2.blk.pull = _
    rw [hasked.cfg, hasked.blk]
    rfl
  have hexec : exec (.sampleAnalog buf p) s = ((achFill p u).2.emit (.setPull p (s.pullOf p))).finish
      (.buffer (writeBytes buf (put16le 0 (achFill p u).1))) := by
    rw [exec, execSampleAnalog, transact_of_bufferLength h hb, State.begin_cfg, if_neg (not_not.mpr hp)]
    dsimp only
    rw [hask, ← hpull]
    rfl
  refine ⟨samples.1, _, hexec, ⟨hasked.cfg, hasked.port⟩, length_takeSamples p s.cfg.nAnalog u, ?_, ?_⟩
  · show ({ samples.2.last with trace := samples.2.last.trace ++ [_], result := _ } : Report) = _
    rw [hasked.last, ← hask]
    rfl
  · show ({ samples.2.blk with aring := mapSet p samples.1 samples.2.blk.aring } : Block) = _
    rw [hasked.blk]
    rfl

/-- SAMPLE_ANALOG on a pin without a ring is a no-op that asks nothing (R82, R92). -/
theorem exec_sampleAnalog_notAnalog {p : Pin} (h : s.cfg.legal = true) (hb : 2 ≤ buf.length) (hp : p ∉ s.cfg.analogPins) :
    exec (.sampleAnalog buf p) s = .next (s.after s.blk (noopReport [] (.notAnalogPin p))) := by
  rw [exec, execSampleAnalog, transact_of_bufferLength h hb, State.begin_cfg, if_pos hp]
  rfl

/-- SAMPLE_ANALOG on an analog pin that is no input is a no-op after its one question (R82). -/
theorem exec_sampleAnalog_notInput {p : Pin} (h : s.cfg.legal = true) (hb : 2 ≤ buf.length) (hp : p ∈ s.cfg.analogPins)
    (hin : mapFind? (.isInput p) s.replies.bools = some false) :
    exec (.sampleAnalog buf p) s = (s.begin.askBool (.isInput p)).2.noop (.notInput p) := by
  have hask : (s.begin.askBool (.isInput p)).1 = false := askBool_of_reply hin
  rw [exec, execSampleAnalog, transact_of_bufferLength h hb, State.begin_cfg, if_neg (not_not.mpr hp)]
  dsimp only
  rw [hask]
  rfl

/-- HNORM returns its formula and changes nothing (R80). -/
theorem exec_hnorm (h : s.cfg.legal = true) (hd : Int) (facedown : Bool) : exec (.hnorm hd facedown) s =
    .next (s.after s.blk (doneReport [] (.int (headingNorm hd facedown)))) := by
  rw [exec, execHnorm, transact_of_legal h]
  rfl

/-- TILT returns P_ROUND of its formula on the real numbers and changes nothing (R81). -/
theorem exec_tilt (h : s.cfg.legal = true) (θ : RealNum) : exec (.tilt θ) s =
    .next (s.after s.blk (doneReport [] (.int (roundOf s.cfg (tiltReal (angleReal θ)))))) := by
  have hround : tiltOf s.cfg θ = roundOf s.cfg (tiltReal (angleReal θ)) := by
    rw [tiltOf, roundReal_eq, exactToReal_scale, exactToReal_foldRatio, exactToReal_tiltRatio, tiltReal]
    norm_num
  rw [exec, execTilt, transact_of_legal h, ← hround]
  rfl

theorem roundOf_towardZero {c : Cfg} (h : c.round = .towardZero) (x : ℝ) : roundOf c x = truncReal x := by
  rw [roundOf, h]

end Fields

section Tilt

variable {a x : ℝ}

/-- Truncation stays between the integers a number lies between. -/
theorem truncReal_mem_range {lo hi : ℤ} (hlo : (lo : ℝ) ≤ x) (hhi : x ≤ hi) :
    lo ≤ truncReal x ∧ truncReal x ≤ hi := by
  unfold truncReal
  split
  · exact ⟨by exact_mod_cast hlo.trans (Int.le_ceil x), Int.ceil_le.mpr hhi⟩
  · exact ⟨Int.le_floor.mpr hlo, by exact_mod_cast (Int.floor_le x).trans hhi⟩

/-- TILT by the angle: the tilt ratio exceeds 1 exactly beyond π/2 (R81). -/
theorem tiltReal_eq (a : ℝ) : tiltReal a = 1000 *
    (if Real.pi / 2 < a then 2 - 2 * a / Real.pi else if a < -(Real.pi / 2) then -2 - 2 * a / Real.pi
      else 2 * a / Real.pi) := by
  have hpi := Real.pi_pos
  have hratio : a * 180 / Real.pi / 90 = 2 * a / Real.pi := by field_simp; ring
  have habove : 1 < 2 * a / Real.pi ↔ Real.pi / 2 < a := by
    rw [lt_div_iff₀ hpi]
    constructor <;> intro h <;> linarith
  have hbelow : 2 * a / Real.pi < -1 ↔ a < -(Real.pi / 2) := by
    rw [div_lt_iff₀ hpi]
    constructor <;> intro h <;> linarith
  simp only [tiltReal, hratio, habove, hbelow]

/-- Up to 3π/2 either way the folded tilt stays in −1000..1000. -/
theorem abs_tiltReal_le (h : |a| ≤ 3 * Real.pi / 2) : |tiltReal a| ≤ 1000 := by
  have hpi := Real.pi_pos
  have hmul : 2 * a / Real.pi * Real.pi = 2 * a := by field_simp
  obtain ⟨hlo, hhi⟩ := abs_le.mp h
  have hscale (y : ℝ) (hy₁ : -Real.pi ≤ y * Real.pi) (hy₂ : y * Real.pi ≤ Real.pi) : |1000 * y| ≤ 1000 := by
    have h₁ : -1 ≤ y := by nlinarith
    have h₂ : y ≤ 1 := by nlinarith
    exact abs_le.mpr ⟨by linarith, by linarith⟩
  rw [tiltReal_eq]
  split
  · exact hscale _ (by linarith) (by linarith)
  · split
    · exact hscale _ (by linarith) (by linarith)
    · exact hscale _ (by linarith) (by linarith)

end Tilt

/-- Settles O33: the fields stand at distinct offsets, so each reads back as its saturated value. -/
theorem sampleOrientWritesNineFields : Obligations.SampleOrientWritesNineFields := by
  intro s buf h hb
  obtain ⟨pr, rr, ax, ay, az, hd, mx, my, mz, t, ht, hlast, ⟨hcfg, hport⟩, hblk⟩ := exec_sampleOrient h hb
  have hoff := offsets_orientFields s.cfg pr rr ax ay az hd mx my mz
  have hn : ((orientFields s.cfg pr rr ax ay az hd mx my mz).map Prod.fst).Nodup := hoff ▸ List.nodup_range
  have hlt : ∀ w ∈ orientFields s.cfg pr rr ax ay az hd mx my mz, w.1 < buf.length :=
    forall_offset hoff fun k hk => (List.mem_range.mp hk).trans_le hb
  have hs16 {i : Nat} {v : Int} (hm : put16le i (satS16 v) ⊆ orientFields s.cfg pr rr ax ay az hd mx my mz) :=
    s16Field_writeBytes hn hlt hm
  have hpitch := hs16 (i := 0) (v := roundOf s.cfg (1000 * angleReal pr)) (by simp [orientFields, angleField_eq])
  have hroll := hs16 (i := 2) (v := roundOf s.cfg (1000 * angleReal rr)) (by simp [orientFields, angleField_eq])
  have hheading := u16Field_writeBytes hn hlt (i := 10) (v := headingNorm hd (0 < az)) (by simp [orientFields, put16le])
  refine ⟨pr, rr, ax, ay, az, hd, mx, my, mz, _, t, ht, hlast, hcfg, hport, hblk, length_writeBytes _ _, hpitch, hroll,
    fun hround => ⟨roundOf_towardZero hround _ ▸ hpitch, roundOf_towardZero hround _ ▸ hroll⟩,
    hs16 (by simp [orientFields, put16le]), hs16 (by simp [orientFields, put16le]), hs16 (by simp [orientFields, put16le]),
    ?_, hs16 (by simp [orientFields, put16le]), hs16 (by simp [orientFields, put16le]),
    hs16 (by simp [orientFields, put16le]), fun k hk => ?_⟩
  · rw [hheading, headingNorm_eq]
    simp only [decide_eq_true_eq]
  · exact writeBytes_other (forall_offset hoff fun j hj => ((List.mem_range.mp hj).trans_le hk).ne) buf

/-- Settles O34: the ring is not empty, so the median of its words is a word. -/
theorem sampleAnalogRefillsTheRingAndRestoresPull : Obligations.SampleAnalogRefillsTheRingAndRestoresPull := by
  intro s buf p h hp hb hin
  obtain ⟨ring, t, ht, ⟨hcfg, hport⟩, hlen, hlast, hblk⟩ := exec_sampleAnalog_input h hb hp hin
  obtain ⟨-, hanalog, -⟩ := legal_counts h
  have hne : ring ≠ [] := by
    rw [ne_eq, ← List.length_eq_zero_iff]
    omega
  obtain ⟨hlo, hhi⟩ : 0 ≤ medianOf (ring.map fun w => (w.toNat : Int)) ∧
    medianOf (ring.map fun w => (w.toNat : Int)) ≤ 65535 := medianOf_words hne
  refine ⟨ring, _, t, ht, hlen, hlast, hcfg, hport, by rw [hblk], ?_, fun q hq => ?_, length_writeBytes _ _,
    u16Field_put16le (by omega) hlo (by omega), fun k hk => writeBytes_other (by simp [put16le]; omega) buf⟩
  · rw [State.aringOf, hblk]
    exact mapGet_mapSet_self p _ ring _
  · rw [State.aringOf, hblk, hcfg]
    exact mapGet_mapSet_other hq _ ring _

/-- Settles O35. -/
theorem sampleAnalogOnOtherPinsIsSilent : Obligations.SampleAnalogOnOtherPinsIsSilent := by
  refine fun s buf p h hb => ⟨exec_sampleAnalog_notAnalog h hb, fun hp hin => ?_⟩
  have hask : (s.begin.askBool (.isInput p)).1 = false := askBool_of_reply hin
  exact ⟨_, exec_sampleAnalog_notInput h hb hp hin, rfl, rfl, rfl, by rw [← hask]; rfl⟩

/-- Settles O36: the formula on each side of 180, and twice the formula. -/
theorem headingNormReflectsFaceDown : Obligations.HeadingNormReflectsFaceDown := by
  intro s hd facedown h
  have hnorm := headingNorm_eq hd facedown
  have htwice (h₀ : 0 ≤ hd) (h₁ : hd ≤ 359) : headingNorm (headingNorm hd facedown) facedown = hd := by
    rw [headingNorm_eq, hnorm]
    grind
  refine ⟨_, exec_hnorm h hd facedown, ?_, ?_, ?_, ?_, ?_, fun h₀ h₁ => by rw [exec_hnorm h, htwice h₀ h₁]⟩ <;>
    rw [hnorm] <;> grind

/-- Settles O37: the exact arithmetic is the real formula, and the default P_ROUND truncates it. -/
theorem tiltIsTheFoldedRealFormula : Obligations.TiltIsTheFoldedRealFormula := by
  refine fun s θ h => ⟨exec_tilt h θ, fun hround => ?_⟩
  rw [exec_tilt h, roundOf_towardZero hround]

/-- Settles O38: the branches of the fold by the angle. -/
theorem tiltStaysInRangeByReflection : Obligations.TiltStaysInRangeByReflection := by
  intro s θ n h hround ht
  have hpi := Real.pi_pos
  obtain rfl : truncReal (tiltReal (angleReal θ)) = n := by
    rw [exec_tilt h, roundOf_towardZero hround] at ht
    simpa [State.after, doneReport] using ht
  refine ⟨fun hle => ?_, fun hgt => ?_, fun hlt => ?_, fun heq => ?_, fun heq => ?_⟩
  · obtain ⟨hlo, hhi⟩ := abs_le.mp (abs_tiltReal_le hle)
    exact truncReal_mem_range (by push_cast; exact hlo) (by push_cast; exact hhi)
  · rw [tiltReal_eq, if_pos hgt]
  · rw [tiltReal_eq, if_neg (by linarith), if_pos hlt]
  · have hval : tiltReal (angleReal θ) = (1000 : ℤ) := by
      rw [tiltReal_eq, heq, if_neg (lt_irrefl _), if_neg (by linarith)]
      field_simp
      norm_num
    obtain ⟨hlo, hhi⟩ := truncReal_mem_range hval.ge hval.le
    exact le_antisymm hhi hlo
  · have hval : tiltReal (angleReal θ) = (-1000 : ℤ) := by
      rw [tiltReal_eq, heq, if_neg (by linarith), if_neg (lt_irrefl _)]
      field_simp
      norm_num
    obtain ⟨hlo, hhi⟩ := truncReal_mem_range hval.ge hval.le
    exact le_antisymm hhi hlo

end Sys2Proof.Machine
end
